-- ==== Sys2Proof/Word.lean ====
section
/-! DEFINITION. The word types of CORE (00_scope.md R8, R11): a byte, a 32-bit word, a 64-bit command word.
All values are unsigned and bit 0 is the least significant bit, which is how `BitVec` numbers them. -/

namespace Sys2Proof

/-- A byte has bits 7 down to 0 (R11). -/
abbrev Byte := BitVec 8

/-- A 32-bit word has bits 31 down to 0 (R8, R11). Its `+` is the `+32` of R12. -/
abbrev Word := BitVec 32

/-- A command word has bits 63 down to 0 (R11, R130). -/
abbrev CmdWord := BitVec 64

end Sys2Proof
end

