-- ==== Sys2Proof/Machine/CsrMap.lean ====
section
/-! DEFINITION. The index map of the control and status registers (10_state.md R61) and the identity word (R62). -/

namespace Sys2Proof.Machine

/-- The ten defined CSR indices (R61, R145): `0x000` to `0x005` and `0x010` to `0x013`. -/
def csrIndices : List Word :=
  [0x000, 0x001, 0x002, 0x003, 0x004, 0x005, 0x010, 0x011, 0x012, 0x013]

/-- Whether `imm` is one of the ten indices (R145). -/
def csrDefined (imm : Word) : Bool := csrIndices.contains imm

/-- The constant of the `ID` register: the ASCII bytes "M5S1" (R62, R3). -/
def idWord : Word := 0x4D355331

end Sys2Proof.Machine
end

