-- ==== Sys2Proof/Syntax.lean ====
section
/-! DEFINITION. The commands of CORE: one constructor for each of the 15 rows of 30_encoding.md R138. -/

namespace Sys2Proof

/-- A slot operand: one of the `NDIG = 4` digest slots (R9, R132, R135). -/
abbrev SlotNo := Fin 4

/-- The commands, with the operands of R135. Slot operands are below 4 by their type. The operand of `MSG.PUSH` and of
`CSR.RD` is the whole 32-bit field `imm`, of which WellFormed.lean says which values are legal. -/
inductive Instr where
  /-- `CSR.RD csr` (R300). -/
  | csrRd (csr : Word)
  /-- `MSG.CLR` (R172). -/
  | msgClr
  /-- `MSG.PUSH byte`, the byte being `imm[7:0]` (R173). -/
  | msgPush (imm : Word)
  /-- `PAD.NBLK` (R181). -/
  | padNblk
  /-- `PAD.BYTE.MD5 p` (R182). -/
  | padByteMd5 (p : Word)
  /-- `PAD.BYTE.SHA1 p` (R183). -/
  | padByteSha1 (p : Word)
  /-- `MD5 rd` (R214). -/
  | md5 (rd : SlotNo)
  /-- `MD5.R rd, R` (R215). -/
  | md5R (rd : SlotNo) (rounds : Word)
  /-- `SHA1 rd` (R252). -/
  | sha1 (rd : SlotNo)
  /-- `SHA1.R rd, R` (R253). -/
  | sha1R (rd : SlotNo) (rounds : Word)
  /-- `DG.MOV rd, rs1` (R279). -/
  | dgMov (rd rs1 : SlotNo)
  /-- `DG.WORD rs1, j` (R280). -/
  | dgWord (rs1 : SlotNo) (j : Word)
  /-- `DG.BYTE rs1, n` (R281). -/
  | dgByte (rs1 : SlotNo) (n : Word)
  /-- `DG.HEXC rs1, n` (R282). -/
  | dgHexc (rs1 : SlotNo) (n : Word)
  /-- `DG.DIFF rs1, rs2` (R283). -/
  | dgDiff (rs1 rs2 : SlotNo)
  deriving DecidableEq, Repr

end Sys2Proof
end

