-- ==== Sys2Proof/WellFormed.lean ====
section
/-! DEFINITION. Which terms of `Instr` are commands of CORE (30_encoding.md R132, R141, R145). A slot operand is below
`NDIG = 4` by its type, so two checks are left: the upper bits of the operand of `MSG.PUSH`, and the index of
`CSR.RD`. -/

namespace Sys2Proof

/-- `imm[31:8]` of `MSG.PUSH` must be 0 (R135, R141). -/
def pushOperandLegal (imm : Word) : Bool := decide (imm.toNat < 256)

/-- The well-formedness check of a command. -/
def Instr.wf : Instr → Bool
  | .csrRd csr => Machine.csrDefined csr
  | .msgClr => true
  | .msgPush imm => pushOperandLegal imm
  | .padNblk => true
  | .padByteMd5 _ => true
  | .padByteSha1 _ => true
  | .md5 _ => true
  | .md5R _ _ => true
  | .sha1 _ => true
  | .sha1R _ _ => true
  | .dgMov _ _ => true
  | .dgWord _ _ => true
  | .dgByte _ _ => true
  | .dgHexc _ _ => true
  | .dgDiff _ _ => true

end Sys2Proof
end

