-- ==== Sys2Proof/Decode.lean ====
section
/-! DEFINITION. The decoder of command words, as the procedure of 30_encoding.md R134 over the opcode table of R138, and
after it the encoder, from the format of R131. Decoding is total: every 64-bit value is one command or is illegal for a
reason with a name. -/

namespace Sys2Proof

/-- The rows of the opcode table. -/
inductive Op where
  | csrRd | msgClr | msgPush | padNblk | padByteMd5 | padByteSha1 | md5 | md5R | sha1 | sha1R
  | dgMov | dgWord | dgByte | dgHexc | dgDiff
  deriving DecidableEq, Repr

/-- A row of R138: a command word selects it when `(cw & mask) = value`. -/
structure OpRow where
  op    : Op
  mask  : CmdWord
  value : CmdWord
  deriving DecidableEq, Repr

/-- Why a command word is no command (R312 lists the grounds of `E_ILLEGAL`). -/
inductive Illegal where
  /-- `op` is in no row of R138 (R140). -/
  | reservedOp
  /-- `op` is defined, and a slot operand is 4 or more (R142) or a bit that must be 0 is not (R141). -/
  | strayBits
  /-- `CSR.RD` of an index that R61 does not define (R145). -/
  | undefinedCsr
  deriving DecidableEq, Repr

/-! ### The fields of format `C` (R131) -/

/-- `cw[63:56]`. -/
def opField (cw : CmdWord) : BitVec 8 := cw.extractLsb' 56 8
/-- `cw[55:52]`. -/
def rdField (cw : CmdWord) : BitVec 4 := cw.extractLsb' 52 4
/-- `cw[51:48]`. -/
def rs1Field (cw : CmdWord) : BitVec 4 := cw.extractLsb' 48 4
/-- `cw[47:44]`. -/
def rs2Field (cw : CmdWord) : BitVec 4 := cw.extractLsb' 44 4
/-- `cw[31:0]`. -/
def immField (cw : CmdWord) : Word := cw.extractLsb' 0 32

/-- A slot operand: the unsigned value of its 4-bit field, which the row's mask restricts to 0..3 (R132, R135). -/
def slotOfField (f : BitVec 4) : SlotNo := Fin.ofNat 4 f.toNat

/-- The opcode table of R138, the masks and match values as it prints them. -/
def opTable : List OpRow :=
  [ ⟨.csrRd,       0xFFFFFFFF00000000, 0x0100000000000000⟩,
    ⟨.msgClr,      0xFFFFFFFFFFFFFFFF, 0x1000000000000000⟩,
    ⟨.msgPush,     0xFFFFFFFFFFFFFF00, 0x1100000000000000⟩,
    ⟨.padNblk,     0xFFFFFFFFFFFFFFFF, 0x1800000000000000⟩,
    ⟨.padByteMd5,  0xFFFFFFFF00000000, 0x1900000000000000⟩,
    ⟨.padByteSha1, 0xFFFFFFFF00000000, 0x1A00000000000000⟩,
    ⟨.md5,         0xFFCFFFFFFFFFFFFF, 0x2000000000000000⟩,
    ⟨.md5R,        0xFFCFFFFF00000000, 0x2100000000000000⟩,
    ⟨.sha1,        0xFFCFFFFFFFFFFFFF, 0x3000000000000000⟩,
    ⟨.sha1R,       0xFFCFFFFF00000000, 0x3100000000000000⟩,
    ⟨.dgMov,       0xFFCCFFFFFFFFFFFF, 0x4000000000000000⟩,
    ⟨.dgWord,      0xFFFCFFFF00000000, 0x4100000000000000⟩,
    ⟨.dgByte,      0xFFFCFFFF00000000, 0x4200000000000000⟩,
    ⟨.dgHexc,      0xFFFCFFFF00000000, 0x4300000000000000⟩,
    ⟨.dgDiff,      0xFFFCCFFFFFFFFFFF, 0x4400000000000000⟩ ]

/-- Whether `cw` selects the row (R134 step 1). -/
def OpRow.selects (r : OpRow) (cw : CmdWord) : Bool := cw &&& r.mask == r.value

/-- The row a command word selects, if any (R134 step 1). -/
def findOp (cw : CmdWord) : Option Op := (opTable.find? (·.selects cw)).map (·.op)

/-- Why a word that selects no row is illegal: its `op` is reserved (R140), or it is defined and other bits are wrong
(R141, R142). -/
def whyNoRow (cw : CmdWord) : Illegal :=
  if opTable.any (fun r => opField r.value == opField cw) then .strayBits else .reservedOp

/-- The command of a row, its operands taken from the fields with no transformation (R135). -/
def assemble (op : Op) (cw : CmdWord) : Instr :=
  match op with
  | .csrRd => .csrRd (immField cw)
  | .msgClr => .msgClr
  | .msgPush => .msgPush (immField cw)
  | .padNblk => .padNblk
  | .padByteMd5 => .padByteMd5 (immField cw)
  | .padByteSha1 => .padByteSha1 (immField cw)
  | .md5 => .md5 (slotOfField (rdField cw))
  | .md5R => .md5R (slotOfField (rdField cw)) (immField cw)
  | .sha1 => .sha1 (slotOfField (rdField cw))
  | .sha1R => .sha1R (slotOfField (rdField cw)) (immField cw)
  | .dgMov => .dgMov (slotOfField (rdField cw)) (slotOfField (rs1Field cw))
  | .dgWord => .dgWord (slotOfField (rs1Field cw)) (immField cw)
  | .dgByte => .dgByte (slotOfField (rs1Field cw)) (immField cw)
  | .dgHexc => .dgHexc (slotOfField (rs1Field cw)) (immField cw)
  | .dgDiff => .dgDiff (slotOfField (rs1Field cw)) (slotOfField (rs2Field cw))

/-- Step 3 of R134: `CSR.RD` of an undefined index is illegal although it selects a row (R145). -/
def csrIndexIllegal (op : Op) (cw : CmdWord) : Bool :=
  match op with
  | .csrRd => !Machine.csrDefined (immField cw)
  | _ => false

/-- The decoding procedure of R134. -/
def decode (cw : CmdWord) : Except Illegal Instr :=
  match findOp cw with
  | none => .error (whyNoRow cw)
  | some op => if csrIndexIllegal op cw then .error .undefinedCsr else .ok (assemble op cw)

/-- The decoder on a word given as a number, bit 0 the least significant; bits at and above `nbits` are 0. Every command
is one 64-bit word presented whole (R130, R133), so there is no byte order to choose (DEDUCED, log entry 10, safe). -/
def decodeTableWord (nbits w : Nat) : Option Instr :=
  match decode (BitVec.ofNat 64 (w % 2 ^ nbits)) with
  | .ok i => some i
  | .error _ => none

/-! ### The encoder -/

/-- A command word from its fields: format `C` of R131, with the reserved field `zero` at 0. -/
def packC (op : BitVec 8) (rd rs1 rs2 : BitVec 4) (imm : Word) : CmdWord :=
  op ++ rd ++ rs1 ++ rs2 ++ (0 : BitVec 12) ++ imm

/-- A slot operand as its 4-bit field. -/
def slotField (d : SlotNo) : BitVec 4 := BitVec.ofNat 4 d.val

/-- The command word of a command: the `op` of its row in R138, its operands in their fields, every other field 0
(R132). -/
def encode : Instr → CmdWord
  | .csrRd csr => packC 0x01 0 0 0 csr
  | .msgClr => packC 0x10 0 0 0 0
  | .msgPush imm => packC 0x11 0 0 0 imm
  | .padNblk => packC 0x18 0 0 0 0
  | .padByteMd5 p => packC 0x19 0 0 0 p
  | .padByteSha1 p => packC 0x1A 0 0 0 p
  | .md5 rd => packC 0x20 (slotField rd) 0 0 0
  | .md5R rd r => packC 0x21 (slotField rd) 0 0 r
  | .sha1 rd => packC 0x30 (slotField rd) 0 0 0
  | .sha1R rd r => packC 0x31 (slotField rd) 0 0 r
  | .dgMov rd rs1 => packC 0x40 (slotField rd) (slotField rs1) 0 0
  | .dgWord rs1 j => packC 0x41 0 (slotField rs1) 0 j
  | .dgByte rs1 n => packC 0x42 0 (slotField rs1) 0 n
  | .dgHexc rs1 n => packC 0x43 0 (slotField rs1) 0 n
  | .dgDiff rs1 rs2 => packC 0x44 0 (slotField rs1) (slotField rs2) 0

end Sys2Proof
end

