-- ==== Sys2Proof/Machine/Bits.lean ====
section
/-! DEFINITION. The notation of 00_scope.md R11 to R17: rotation, population count, word assembly and byte sequences. -/

namespace Sys2Proof.Machine

/-- `rotl32(x, n)` for `0 <= n <= 31` (R14): bit `i` of `x` becomes bit `(i + n) mod 32` of the result. -/
def rotl32 (x : Word) (n : Nat) : Word := (x <<< n) ||| (x >>> (32 - n))

/-- `popcount32(x)`: the number of bits of `x` that are 1 (R15). -/
def popcount32 (x : Word) : Nat := (List.range 32).countP fun i => x.getLsbD i

/-- `le32(b0, b1, b2, b3)`: the first byte is least significant (R17). -/
def le32 (b0 b1 b2 b3 : Byte) : Word := b3 ++ b2 ++ b1 ++ b0

/-- `be32(b0, b1, b2, b3)`: the first byte is most significant (R17). -/
def be32 (b0 b1 b2 b3 : Byte) : Word := b0 ++ b1 ++ b2 ++ b3

/-- Byte `q` of a value, byte 0 being `v[7:0]`. -/
def byteOf {n : Nat} (v : BitVec n) (q : Nat) : Byte := v.extractLsb' (8 * q) 8

/-- `le_bytes32(w)` (R17). -/
def leBytes32 (w : Word) : List Byte := [byteOf w 0, byteOf w 1, byteOf w 2, byteOf w 3]

/-- `be_bytes32(w)` (R17). -/
def beBytes32 (w : Word) : List Byte := [byteOf w 3, byteOf w 2, byteOf w 1, byteOf w 0]

/-- `le_bytes64(v)` (R17). -/
def leBytes64 (v : BitVec 64) : List Byte :=
  [byteOf v 0, byteOf v 1, byteOf v 2, byteOf v 3, byteOf v 4, byteOf v 5, byteOf v 6, byteOf v 7]

/-- `be_bytes64(v)`: the same 8 bytes in the opposite order (R17). -/
def beBytes64 (v : BitVec 64) : List Byte :=
  [byteOf v 7, byteOf v 6, byteOf v 5, byteOf v 4, byteOf v 3, byteOf v 2, byteOf v 1, byteOf v 0]

/-- `zext_32(v)` of a byte (R18). -/
def zextByte (b : Byte) : Word := b.setWidth 32

/-- `zext_32(v)` of a count, which is below `2^32` wherever it is used (R18, R136). -/
def zextNat (n : Nat) : Word := BitVec.ofNat 32 n

end Sys2Proof.Machine
end

