-- ==== Sys2Proof/Config.lean ====
section
/-! DEFINITION. What an implementation fixes and the spec leaves open (00_scope.md R9), and the FREE VALUES: constants
with no body, so that no proof can learn what they are. -/

namespace Sys2Proof.Config

/-- `MSG_CAP - 1`. The capacity is an OPEN parameter, `1 <= MSG_CAP <= 2^32 - 64` (R9, 92_eei_decisions.md D3), so it
has no body here. DESIGN CHOICE, log entry 1, safe. -/
opaque capacityPred : Fin 4294967232

/-- `MSG_CAP`, the capacity of the message memory in bytes as the `CAP` register shows it (R63): any value from 1 to
`2^32 - 64`, and nothing more can be proved of it. -/
def msgCap : Word := BitVec.ofNatLT (capacityPred.val + 1) (by omega)

/-- `SHA1_RMAX`: the largest round count the SHA-1 Engine gives a meaning (R9, D14). -/
def sha1Rmax : Nat := 80

/-- The free value of a message byte that nothing has written (R80, R92: "unspecified"), by its
address. DESIGN CHOICE, log entry 3, safe. -/
opaque freeByte : Nat → Byte

/-- The free value left in an engine register at the end of a hash command (D19: "Unspecified and unobservable"), by a
number that is never used twice. DESIGN CHOICE, log entry 4, safe. -/
opaque freeWord : Nat → Word

/-- The free value of the 64-bit length field of a padded message whose bit length does not fit 64 bits, by the message's
length. The spec gives no rule for it and says not to assume the length modulo `2^64` (91_not_in_source.md N5, D6); no
message that CORE can hold is that long (R10). DESIGN CHOICE, log entry 16, safe. -/
opaque freeBitlen : Nat → BitVec 64

end Sys2Proof.Config
end

