-- ==== Sys2Proof/Machine/State.lean ====
section
/-! DEFINITION. The state of CORE as plain data (10_state.md R40, and the rules named at each field), the ports of the
host interface, and the state right after reset (R80, 70_reset_and_hazards.md R351). -/

namespace Sys2Proof.Machine

/-- The two algorithms (R2). -/
inductive Alg where
  | md5 | sha1
  deriving DecidableEq, Repr

/-- The algorithm mark of a slot (R70). The fourth two-bit value never occurs (R67). -/
inductive Tag where
  | empty | md5 | sha1
  deriving DecidableEq, Repr

/-- A digest slot: a tag and five 32-bit words (R70). An MD5 digest is `w[0..3]`, a SHA-1 digest `w[0..4]`. -/
structure Slot where
  tag : Tag
  w   : Vector Word 5
  deriving DecidableEq, Repr

/-- The phases of the sequencer (R55). -/
inductive Phase where
  | idle | init | load | expand | mix | fold | done
  deriving DecidableEq, Repr

/-- The engine-private state (R40): one set of registers for both engines, as R45 writes them (DEDUCED, log entry 15,
safe). -/
structure Engine where
  /-- The running accumulator `H[0..4]` (R41, R43). -/
  h     : Vector Word 5
  /-- The working registers (R42, R44). -/
  a     : Word
  b     : Word
  c     : Word
  d     : Word
  e     : Word
  /-- The block buffer `M[0..15]` (R46). -/
  m     : Vector Word 16
  /-- The SHA-1 schedule `W[0..79]` (R47). -/
  w     : Vector Word 80
  /-- The round-count register `R` (R48). -/
  r     : Word
  /-- The phase of the sequencer (R55). -/
  phase : Phase
  /-- The index of the current block, a 27-bit counter (R55). -/
  n     : BitVec 27
  /-- The step counter, a 32-bit counter (R55, R58). -/
  k     : Word
  /-- The block count `NB`, at most `2^26` (R55). -/
  nb    : BitVec 27
  deriving DecidableEq, Repr

/-- The message memory `MSG` as the bytes written so far, addresses strictly rising (R91). -/
abbrev Memory := List Host.Cell

/-- The response to a command: an 8-bit status and a 32-bit value (R136). -/
structure Response where
  status : BitVec 8
  value  : Word
  deriving DecidableEq, Repr

/-- What the host can do to CORE (R19): present a command word, or assert reset, between commands (R350) or while a
command runs (R353). Nothing else can change CORE's state. -/
inductive HostInput where
  /-- The host presents the word and waits for the response (R110, R133). -/
  | command (cw : CmdWord)
  /-- The host asserts and releases reset between commands (R350). -/
  | reset
  /-- The host presents the word and asserts reset before the response (R353). -/
  | resetDuring (cw : CmdWord)
  deriving DecidableEq, Repr

/-- The fault codes that `FLT` can hold (R311). -/
inductive FaultCode where
  /-- `E_ILLEGAL`: the command word is not a legal encoding (R312). -/
  | illegal
  /-- `E_MSGFULL`: append to a full message memory (R313). -/
  | msgFull
  /-- `E_ROUNDS`: SHA-1 round count above 80 (R314). -/
  | rounds
  /-- `E_EMPTY`: a source slot has tag `EMPTY` (R315). -/
  | empty
  /-- `E_ALG`: the two source slots hold digests of different algorithms (R316). -/
  | alg
  /-- `E_INDEX`: index operand out of range (R317). -/
  | index
  deriving DecidableEq, Repr

/-- The reasons a step of the MODEL can stop with a fault: none. A fault of CORE is a next state (R322), a command
refused while halted is one too (R325), and "there is no fourth outcome: no command hangs, none is dropped without a
response, none has an undefined result" (R310). Nobody raises this; DEDUCED, log entry 14, safe. -/
inductive Fault where
  deriving DecidableEq, Repr

/-- The reasons the model can have no meaning for a command. -/
inductive Refusal where
  /-- Raised by `exec` for a command that has no meaning yet, by the mnemonic of its row. Safe: nothing can be proved of
  such a run. Every command of R138 has its meaning, so nothing raises it. -/
  | notModelled (mnemonic : String)
  deriving DecidableEq, Repr

/-- The whole state of CORE (R40), and below it the model's own fields for the host interface and for free values. -/
structure State where
  /-- The message memory `MSG` (R91). -/
  msg     : Memory
  /-- `LEN`, the number of message bytes loaded (R64). -/
  len     : Word
  /-- `CAP`, hardwired to the parameter `MSG_CAP` (R63): no command and no reset writes it. -/
  cap     : Word
  /-- The digest slot file `DG[0..3]` (R70). -/
  dg      : Vector Slot 4
  /-- `FLT`, bits 7:0: 0 while CORE runs, else the code of the fault that halted it (R65). -/
  flt     : BitVec 8
  /-- `FCMD`, the command word that faulted, 0 while `FLT = 0` (R66). -/
  fcmd    : CmdWord
  /-- The engine registers and the sequencer (R41 to R48, R55). -/
  eng     : Engine
  /-- Model's own (DESIGN CHOICE, log entry 6): what the host is going to do, soonest first. CORE has no command queue (R110): the list is the host's
  side, and a step takes its first entry. -/
  pending : List HostInput
  /-- Model's own (log entry 6): the command word presented to CORE, its input while the command executes (R133). -/
  cmd     : CmdWord
  /-- Model's own (log entry 6): the response delivered last, none when none was delivered since reset (R136). -/
  resp    : Option Response
  /-- Model's own: the number of free values used so far (DESIGN CHOICE, log entry 4, safe). -/
  free    : Nat
  deriving DecidableEq, Repr

/-- A slot after reset: tag `EMPTY`. Its words are unspecified (R80) and cannot be read; 0 is the model's choice
(DESIGN CHOICE, log entry 2, unsafe). -/
def Slot.reset : Slot := ⟨.empty, #v[0, 0, 0, 0, 0]⟩

/-- The engine after reset: `phase = IDLE`. The registers are unspecified (R80) and are written before they are read; 0 is
the model's choice (DESIGN CHOICE, log entry 2, unsafe). -/
def Engine.reset : Engine where
  h := #v[0, 0, 0, 0, 0]
  a := 0
  b := 0
  c := 0
  d := 0
  e := 0
  m := Vector.replicate 16 0
  w := Vector.replicate 80 0
  r := 0
  phase := .idle
  n := 0
  k := 0
  nb := 0

/-- The state after reset of a CORE whose capacity is `cap` (R80, R351): `LEN = 0`, every tag `EMPTY`, `FLT = 0`,
`FCMD = 0`, `phase = IDLE`, nothing listed in `MSG`, no response delivered, nothing presented. -/
def State.resetWith (cap : Word) : State where
  msg := []
  len := 0
  cap := cap
  dg := Vector.replicate 4 Slot.reset
  flt := 0
  fcmd := 0
  eng := Engine.reset
  pending := []
  cmd := 0
  resp := none
  free := 0

/-- The machine right after reset, its capacity the open parameter `MSG_CAP` (R351, R63). -/
def State.reset : State := State.resetWith Config.msgCap

end Sys2Proof.Machine
end

