-- ==== Sys2Proof/Machine/Flags.lean ====
section
/-! DEFINITION. CORE has no flags and no condition codes (10_state.md R59). What stands in their place is the status of a
response and the fault register: the codes of 60_exceptions.md R311, the halted condition of R325, and the two-bit tag
code of R67. -/

namespace Sys2Proof.Machine

/-- The status code `OK` (R311). -/
def statusOk : BitVec 8 := 0x00

/-- The status code `E_HALTED`, a response only, never stored in `FLT` (R311, R318). -/
def statusHalted : BitVec 8 := 0x7F

/-- The code of a fault (R311). -/
def FaultCode.code : FaultCode → BitVec 8
  | .illegal => 0x01
  | .msgFull => 0x02
  | .rounds => 0x03
  | .empty => 0x04
  | .alg => 0x05
  | .index => 0x06

/-- CORE is halted exactly when `FLT != 0` (R325). -/
def State.halted (s : State) : Bool := s.flt != 0

/-- `tagcode` (R300, R67). -/
def Tag.code : Tag → Word
  | .empty => 0
  | .md5 => 1
  | .sha1 => 2

/-- The tag of the algorithm's digests (R70). -/
def Alg.tag : Alg → Tag
  | .md5 => .md5
  | .sha1 => .sha1

end Sys2Proof.Machine
end

