-- ==== Sys2Proof/Machine/Operands.lean ====
section
/-! DEFINITION. The operand forms of 30_encoding.md R135: what a command makes of its operands. There is no addressing
mode: a slot operand names a slot, and `imm` is an unsigned integer that is never extended, scaled or shifted. -/

namespace Sys2Proof.Machine

/-- `imm` as an unsigned integer: a round count, a padded-byte index, a word, byte or character index (R135). -/
def immIndex (imm : Word) : Nat := imm.toNat

/-- The byte of `MSG.PUSH`: `imm[7:0]` (R135). -/
def immByte (imm : Word) : Byte := imm.extractLsb' 0 8

/-- A slot operand read: `DG[d]` (R70). -/
def State.slot (s : State) (d : SlotNo) : Slot := s.dg[d]

end Sys2Proof.Machine
end

