-- ==== Sys2Proof/Machine/Ops.lean ====
section
/-! DEFINITION. The named operations the commands are made of: the message memory (20_memory.md R91 to R93), the slot
file (10_state.md R70), the response (30_encoding.md R136), the fault entry (60_exceptions.md R322), the refusal while
halted (R325), and reset, which is the only way back (R326). -/

namespace Sys2Proof.Machine

/-! ### The message memory -/

/-- The byte listed at an address; `none` where nothing has been written. -/
def Memory.read : Memory → Nat → Option Byte
  | [], _ => none
  | (k, v) :: rest, a => if k = a then some v else Memory.read rest a

/-- `MSG[a] <- v`, keeping addresses strictly rising (R93). -/
def Memory.write : Memory → Nat → Byte → Memory
  | [], a, v => [(a, v)]
  | (k, x) :: rest, a, v =>
    if a < k then (a, v) :: (k, x) :: rest
    else if a = k then (a, v) :: rest
    else (k, x) :: Memory.write rest a v

/-- Whether every listed address is above `a`. -/
def Memory.above (a : Nat) (m : Memory) : Bool := m.all fun cell => decide (a < cell.1)

/-- The canonical form: addresses strictly rising. An unlisted address holds no value, so there is no entry to leave out,
and equal memories are equal lists. -/
def Memory.wf : Memory → Bool
  | [] => true
  | (a, _) :: rest => Memory.above a rest && Memory.wf rest

/-- `MemRead(a, 1)` (R92). It is defined for `a < LEN`, where the byte was written by `MSG.PUSH`; the byte of an address
that nothing has written is unspecified (R80), so it is a free value (DESIGN CHOICE, log entry 3,
safe). -/
def Memory.byteAt (m : Memory) (a : Nat) : Byte := (m.read a).getD (Config.freeByte a)

/-- The byte sequence `[MSG[0], ..., MSG[l-1]]` (R91). -/
def Memory.bytes (m : Memory) (l : Nat) : List Byte := (List.range l).map m.byteAt

/-- The loaded message `[MSG[0], ..., MSG[LEN-1]]` (R91, R170). -/
def State.message (s : State) : List Byte := s.msg.bytes s.len.toNat

/-! ### Responses, faults, the halted state -/

/-- `respond(OK, v)` (R18, R136). -/
def respondOk (v : Word) (s : State) : State := { s with resp := some ⟨statusOk, v⟩ }

/-- A command that ends with `respond(OK, v)` in the state `s`. -/
def done (v : Word) (s : State) : Host.Outcome State Fault Refusal := .next (respondOk v s)

/-- Fault entry (R322): `FLT` takes the code, `FCMD` the whole command word, the response is `(code, 0)`, and nothing else
changes. There is no vector, no saved program counter and no mode. -/
def raiseFault (f : FaultCode) (s : State) : State :=
  { s with flt := f.code, fcmd := s.cmd, resp := some ⟨f.code, 0⟩ }

/-- A command that ends with `raise Fault(f)` (R18): a next state, halted from then on (R310). -/
def fault (f : FaultCode) (s : State) : Host.Outcome State Fault Refusal := .next (raiseFault f s)

/-- The refusal while halted (R310, R318, R325): the response is `(E_HALTED, 0)` and nothing changes, not even `FLT` or
`FCMD`. -/
def refuseHalted (s : State) : State := { s with resp := some ⟨statusHalted, 0⟩ }

/-- Step 1 of R320 for a command other than a legal `CSR.RD`: refused while CORE is halted, else what follows. -/
def whenRunning (s : State) (body : Host.Outcome State Fault Refusal) : Host.Outcome State Fault Refusal :=
  if s.halted then .next (refuseHalted s) else body

/-- A command word that decodes to no command (R320 steps 1 and 2). -/
def illegalWord (s : State) : Host.Outcome State Fault Refusal := whenRunning s (fault .illegal s)

/-- Reset (R350, R351): the state after reset of the same CORE. The capacity is hardwired (R63); what the host does next
is the host's, and the free values already used stay used (DESIGN CHOICE, log entry 8, unsafe as log entry 2 is). No response
is delivered (R353). -/
def hostReset (s : State) : State :=
  { State.resetWith s.cap with pending := s.pending, free := s.free }

/-! ### The slot file -/

/-- `DG[d] <- x`, the whole slot (R70, R284). -/
def State.setSlot (s : State) (d : SlotNo) (x : Slot) : State := { s with dg := s.dg.set d x }

/-- The check of a source slot before anything of it is read (R278): `E_EMPTY` if its tag is `EMPTY`, else the
algorithm of its digest goes on to `body`. -/
def withDigest (s : State) (d : SlotNo) (body : Alg → Host.Outcome State Fault Refusal) :
    Host.Outcome State Fault Refusal :=
  match (s.slot d).tag with
  | .empty => fault .empty s
  | .md5 => body .md5
  | .sha1 => body .sha1

/-- The check of an index operand against the number of entries: `E_INDEX` at or beyond it (R317). -/
def withIndex (s : State) (i bound : Nat) (body : Host.Outcome State Fault Refusal) :
    Host.Outcome State Fault Refusal :=
  if bound ≤ i then fault .index s else body

end Sys2Proof.Machine
end

