-- ==== Sys2Proof/Machine/Digest.lean ====
section
/-! DEFINITION. The Digest unit (43_digest_and_hamming.md): word count, serialization, hex form and Hamming distance (R271
to R277), and the commands `DG.MOV`, `DG.WORD`, `DG.BYTE`, `DG.HEXC`, `DG.DIFF` (R279 to R283). -/

namespace Sys2Proof.Machine

/-- `wc(alg)`, the number of digest words (R271). -/
def wordCount : Alg → Nat
  | .md5 => 4
  | .sha1 => 5

/-- The digest words of a slot of the algorithm, `w[0 .. wc-1]` (R270). -/
def digestWords (alg : Alg) (w : Vector Word 5) : List Word := w.toList.take (wordCount alg)

/-- A word's bytes in the algorithm's native byte order (R99, R272). -/
def wordBytes : Alg → Word → List Byte
  | .md5, w => leBytes32 w
  | .sha1, w => beBytes32 w

/-- `ser(alg, w)`, the canonical byte serialization, word 0 first (R272). -/
def ser (alg : Alg) (w : Vector Word 5) : List Byte := (digestWords alg w).flatMap (wordBytes alg)

/-- `hexdigit(v)`, the character code of the lowercase hexadecimal digit of `v`, for `v` up to 15 (R273; the
ASCII codes PRESUMED by the spec, GK4, log entry 11). -/
def hexDigit (v : Nat) : Byte := BitVec.ofNat 8 (if v ≤ 9 then 0x30 + v else 0x61 + (v - 10))

/-- The two characters of a byte, the high nibble first (R274). -/
def hexOfByte (b : Byte) : List Byte := [hexDigit (b.toNat / 16), hexDigit (b.toNat % 16)]

/-- `hex(alg, w)`, the canonical textual form (R274). -/
def hexForm (alg : Alg) (w : Vector Word 5) : List Byte := (ser alg w).flatMap hexOfByte

/-- `diff` of two digests of one algorithm: the sum of `popcount32(x[j] ^ y[j])` over the digest words (R276). -/
def hammingDiff (alg : Alg) (x y : Vector Word 5) : Nat :=
  (List.zipWith (fun a b => popcount32 (a ^^^ b)) (digestWords alg x) (digestWords alg y)).sum

/-- `DG.MOV rd, rs1` (R279): the whole slot, tag and all five words. -/
def execDgMov (rd rs1 : SlotNo) (s : State) : Host.Outcome State Fault Refusal :=
  whenRunning s (withDigest s rs1 fun _ => done 0 (s.setSlot rd (s.slot rs1)))

/-- `DG.WORD rs1, j` (R280): the word as a number. -/
def execDgWord (rs1 : SlotNo) (j : Word) (s : State) : Host.Outcome State Fault Refusal :=
  whenRunning s (withDigest s rs1 fun alg =>
    withIndex s (immIndex j) (wordCount alg)
      (done ((digestWords alg (s.slot rs1).w).getD (immIndex j) 0) s))

/-- `DG.BYTE rs1, n` (R281): byte `n` of the serialization. -/
def execDgByte (rs1 : SlotNo) (n : Word) (s : State) : Host.Outcome State Fault Refusal :=
  whenRunning s (withDigest s rs1 fun alg =>
    withIndex s (immIndex n) (4 * wordCount alg)
      (done (zextByte ((ser alg (s.slot rs1).w).getD (immIndex n) 0)) s))

/-- `DG.HEXC rs1, n` (R282): character `n` of the hex form. -/
def execDgHexc (rs1 : SlotNo) (n : Word) (s : State) : Host.Outcome State Fault Refusal :=
  whenRunning s (withDigest s rs1 fun alg =>
    withIndex s (immIndex n) (8 * wordCount alg)
      (done (zextByte ((hexForm alg (s.slot rs1).w).getD (immIndex n) 0)) s))

/-- `DG.DIFF rs1, rs2` (R283): `E_EMPTY` for `rs1`, then for `rs2`, then `E_ALG`, else the Hamming distance. -/
def execDgDiff (rs1 rs2 : SlotNo) (s : State) : Host.Outcome State Fault Refusal :=
  whenRunning s (withDigest s rs1 fun alg1 => withDigest s rs2 fun alg2 =>
    if alg1 = alg2 then done (zextNat (hammingDiff alg1 (s.slot rs1).w (s.slot rs2).w)) s
    else fault .alg s)

end Sys2Proof.Machine
end

