-- ==== Sys2Proof/Machine/Padder.lean ====
section
/-! DEFINITION. The Padder (40_message_and_padder.md R174 to R180): the padded message as a sequence, its byte `p` without
building the sequence, and the words of a block. -/

namespace Sys2Proof.Machine

/-- `z(L)`, the number of zero bytes: `(55 - L) mod 64` (R175). -/
def zeroCount (l : Nat) : Nat := if l % 64 ≤ 55 then 55 - l % 64 else 119 - l % 64

/-- `bitlen(L) = 8 * L`, a 64-bit value (R176). Where `8 * L` does not fit 64 bits the spec gives no rule
(91_not_in_source.md N5), and the field is a free value: DESIGN CHOICE, log entry 16, safe. CORE cannot reach it (R10). -/
def bitlen (l : Nat) : BitVec 64 := if 8 * l < 2 ^ 64 then BitVec.ofNat 64 (8 * l) else Config.freeBitlen l

/-- `trailer(alg, L)`: the bit length in the algorithm's byte order (R176, R98). -/
def trailer : Alg → Nat → List Byte
  | .md5, l => leBytes64 (bitlen l)
  | .sha1, l => beBytes64 (bitlen l)

/-- `pad(alg, msg) = msg ++ [0x80] ++ zeros(z(L)) ++ trailer(alg, L)` (R174). -/
def pad (alg : Alg) (msg : List Byte) : List Byte :=
  msg ++ [0x80] ++ List.replicate (zeroCount msg.length) 0 ++ trailer alg msg.length

/-- `nblk(L) = (L + 8) div 64 + 1` (R177). -/
def nblk (l : Nat) : Nat := (l + 8) / 64 + 1

/-- `plen(L) = 64 * nblk(L)` (R177). -/
def plen (l : Nat) : Nat := 64 * nblk l

/-- Byte `p` of the padded message of the `l` bytes that `m` holds from address 0 (R178). -/
def padByte (alg : Alg) (m : Memory) (l p : Nat) : Byte :=
  if p < l then m.byteAt p
  else if p = l then 0x80
  else if p < plen l - 8 then 0x00
  else
    let q := p - (plen l - 8)
    match alg with
    | .md5 => (bitlen l >>> (8 * q)).setWidth 8
    | .sha1 => (bitlen l >>> (8 * (7 - q))).setWidth 8

/-- The word made of four bytes of a block: little-endian for MD5, big-endian for SHA-1 (R96, R97). -/
def assembleWord : Alg → Byte → Byte → Byte → Byte → Word
  | .md5, b0, b1, b2, b3 => le32 b0 b1 b2 b3
  | .sha1, b0, b1, b2, b3 => be32 b0 b1 b2 b3

/-- Word `j` of the block whose bytes are `B` (R96, R97). -/
def blockWord (alg : Alg) (B : Nat → Byte) (j : Nat) : Word :=
  assembleWord alg (B (4 * j)) (B (4 * j + 1)) (B (4 * j + 2)) (B (4 * j + 3))

/-- The sixteen words of the block whose bytes are `B` (R207, R243). -/
def blockWords (alg : Alg) (B : Nat → Byte) : Vector Word 16 := Vector.ofFn fun j => blockWord alg B j.val

/-- Byte `q` of block `n` of the padded message of `msg` (R180). -/
def padBlockByte (alg : Alg) (msg : List Byte) (n q : Nat) : Byte := (pad alg msg).getD (64 * n + q) 0

end Sys2Proof.Machine
end

