-- ==== Sys2Proof/Machine/Md5.lean ====
section
/-! DEFINITION. The MD5 Engine's constants and functions (41_md5_engine.md R201 to R211): the tables, the mixing step, and
`md5_rounds` as a pure function of a message and a round count (R200). -/

namespace Sys2Proof.Machine

/-- Four 32-bit registers: the running accumulator `H[0..3]` or the working registers `a, b, c, d` (R41, R42). -/
structure Md5Regs where
  a : Word
  b : Word
  c : Word
  d : Word
  deriving DecidableEq, Repr

/-- The initial values of the running accumulator (R201; PRESUMED by the spec, GK1, log entry 11). -/
def md5Init : Md5Regs := ⟨0x67452301, 0xEFCDAB89, 0x98BADCFE, 0x10325476⟩

/-- Table `K[0..15]` (R202). -/
def md5K0 : List Word :=
  [ 0xD76AA478, 0xE8C7B756, 0x242070DB, 0xC1BDCEEE, 0xF57C0FAF, 0x4787C62A, 0xA8304613, 0xFD469501,
    0x698098D8, 0x8B44F7AF, 0xFFFF5BB1, 0x895CD7BE, 0x6B901122, 0xFD987193, 0xA679438E, 0x49B40821 ]

/-- Table `K[16..31]` (R202). -/
def md5K1 : List Word :=
  [ 0xF61E2562, 0xC040B340, 0x265E5A51, 0xE9B6C7AA, 0xD62F105D, 0x02441453, 0xD8A1E681, 0xE7D3FBC8,
    0x21E1CDE6, 0xC33707D6, 0xF4D50D87, 0x455A14ED, 0xA9E3E905, 0xFCEFA3F8, 0x676F02D9, 0x8D2A4C8A ]

/-- Table `K[32..47]` (R202). -/
def md5K2 : List Word :=
  [ 0xFFFA3942, 0x8771F681, 0x6D9D6122, 0xFDE5380C, 0xA4BEEA44, 0x4BDECFA9, 0xF6BB4B60, 0xBEBFBC70,
    0x289B7EC6, 0xEAA127FA, 0xD4EF3085, 0x04881D05, 0xD9D4D039, 0xE6DB99E5, 0x1FA27CF8, 0xC4AC5665 ]

/-- Table `K[48..63]` (R202). -/
def md5K3 : List Word :=
  [ 0xF4292244, 0x432AFF97, 0xAB9423A7, 0xFC93A039, 0x655B59C3, 0x8F0CCC92, 0xFFEFF47D, 0x85845DD1,
    0x6FA87E4F, 0xFE2CE6E0, 0xA3014314, 0x4E0811A1, 0xF7537E82, 0xBD3AF235, 0x2AD7D2BB, 0xEB86D391 ]

/-- The constant table `K[0..63]` (R202). -/
def md5K (i : Nat) : Word := (md5K0 ++ md5K1 ++ md5K2 ++ md5K3).getD i 0

/-- `T[g]`, the four shifts of a round group (R203). -/
def md5ShiftGroup : Nat → List Nat
  | 0 => [7, 12, 17, 22]
  | 1 => [5, 9, 14, 20]
  | 2 => [4, 11, 16, 23]
  | _ => [6, 10, 15, 21]

/-- The shift table `S[i] = T[i div 16][i mod 4]` (R203). -/
def md5Shift (i : Nat) : Nat := (md5ShiftGroup (i / 16)).getD (i % 4) 0

/-- The mixing function `f_g` (R204). -/
def md5F (g : Nat) (b c d : Word) : Word :=
  match g with
  | 0 => (b &&& c) ||| (~~~b &&& d)
  | 1 => (d &&& b) ||| (~~~d &&& c)
  | 2 => b ^^^ c ^^^ d
  | _ => c ^^^ (b ||| ~~~d)

/-- The message-word index `widx(i)`, the "16-word block scheduler" (R205). -/
def md5Widx (i : Nat) : Nat :=
  match i / 16 with
  | 0 => i
  | 1 => (5 * i + 1) % 16
  | 2 => (3 * i + 5) % 16
  | _ => (7 * i) % 16

/-- Word `j` of a block buffer, `j` below 16 wherever it is used (R46). -/
def blockBufferWord (m : Vector Word 16) (j : Nat) : Word := m[j]?.getD 0

/-- One mixing step with the step counter `k` (R208). The table index is `k mod 64` (R209), and the four registers change
at once (90_conflicts.md C5). -/
def md5Step (k : Nat) (x : Md5Regs) (m : Vector Word 16) : Md5Regs :=
  let i := k % 64
  let f := md5F (i / 16) x.b x.c x.d
  let t := f + x.a + md5K i + blockBufferWord m (md5Widx i)
  ⟨x.d, x.b + rotl32 t (md5Shift i), x.b, x.c⟩

/-- The working registers after the steps `0, 1, ..., r - 1` (R210). -/
def md5Steps (m : Vector Word 16) (x : Md5Regs) : Nat → Md5Regs
  | 0 => x
  | r + 1 => md5Step r (md5Steps m x r) m

/-- Componentwise addition modulo `2^32`, the fold of R210. -/
def Md5Regs.add (x y : Md5Regs) : Md5Regs := ⟨x.a + y.a, x.b + y.b, x.c + y.c, x.d + y.d⟩

/-- One block: `md5_block(H, M, R)` (R210). -/
def md5Block (h : Md5Regs) (m : Vector Word 16) (r : Nat) : Md5Regs := h.add (md5Steps m h r)

/-- The running accumulator after the first `n` blocks of the padded message (R211). -/
def md5Blocks (msg : List Byte) (r : Nat) : Nat → Md5Regs
  | 0 => md5Init
  | n + 1 => md5Block (md5Blocks msg r n) (blockWords .md5 (padBlockByte .md5 msg n)) r

/-- `md5_rounds(msg, R)` (R211): the accumulator after all blocks. -/
def md5Rounds (msg : List Byte) (r : Nat) : Md5Regs := md5Blocks msg r (nblk msg.length)

/-- The five words of an MD5 slot: the digest and `w[4] = 0` (R214, R72). -/
def Md5Regs.slotWords (x : Md5Regs) : Vector Word 5 := #v[x.a, x.b, x.c, x.d, 0]

end Sys2Proof.Machine
end

