-- ==== Sys2Proof/Machine/Sha1.lean ====
section
/-! DEFINITION. The SHA-1 Engine's constants and functions (42_sha1_engine.md R241 to R248): the schedule expansion, the
mixing step, and `sha1_rounds` as a pure function of a message and a round count of at most 80 (R240). A step with an
index of 80 or more has no value here (R251). -/

namespace Sys2Proof.Machine

/-- Five 32-bit registers: the running accumulator `H[0..4]` or the working registers `a..e` (R43, R44). -/
structure Sha1Regs where
  a : Word
  b : Word
  c : Word
  d : Word
  e : Word
  deriving DecidableEq, Repr

/-- The initial values of the running accumulator (R241; PRESUMED by the spec, GK2, log entry 11). -/
def sha1Init : Sha1Regs := ⟨0x67452301, 0xEFCDAB89, 0x98BADCFE, 0x10325476, 0xC3D2E1F0⟩

/-- The mixing function `f_g` of the round group `g`, 0 to 3 (R242). -/
def sha1F (g : Fin 4) (b c d : Word) : Word :=
  match g with
  | 0 => (b &&& c) ||| (~~~b &&& d)
  | 1 => b ^^^ c ^^^ d
  | 2 => (b &&& c) ||| (b &&& d) ||| (c &&& d)
  | 3 => b ^^^ c ^^^ d

/-- The round constant `Kg` of the round group `g`, 0 to 3 (R242). -/
def sha1K (g : Fin 4) : Word :=
  match g with
  | 0 => 0x5A827999
  | 1 => 0x6ED9EBA1
  | 2 => 0x8F1BBCDC
  | 3 => 0xCA62C1D6

/-- The next schedule word from the words so far, the newest first: `rotl32(W[i-3] ^ W[i-8] ^ W[i-14] ^ W[i-16], 1)`
(R244). -/
def sha1NextWord (newestFirst : List Word) : Word :=
  rotl32 (newestFirst.getD 2 0 ^^^ newestFirst.getD 7 0 ^^^ newestFirst.getD 13 0 ^^^ newestFirst.getD 15 0) 1

/-- `n` more schedule words in increasing order of their index (R244), on a list whose newest word is first. -/
def sha1Extend : Nat → List Word → List Word
  | 0, ws => ws
  | n + 1, ws => sha1Extend n (sha1NextWord ws :: ws)

/-- The whole schedule `W[0..79]`: the block's words and the 64 words of the expansion, always computed in full (R47, R243
to R245). -/
def sha1Schedule (m : Vector Word 16) : Vector Word 80 :=
  let ws := (sha1Extend 64 m.toList.reverse).reverse
  Vector.ofFn fun i => ws.getD i.val 0

/-- One mixing step with the index `i`, 0 to 79 (R246). The five registers change at once. -/
def sha1Step (i : Fin 80) (x : Sha1Regs) (w : Vector Word 80) : Sha1Regs :=
  let g : Fin 4 := ⟨i.val / 20, by omega⟩
  let temp := rotl32 x.a 5 + sha1F g x.b x.c x.d + x.e + sha1K g + w[i]
  ⟨temp, x.a, rotl32 x.b 30, x.c, x.d⟩

/-- The working registers after the steps `0, 1, ..., r - 1`, for `r <= 80` (R247). -/
def sha1Steps (w : Vector Word 80) (x : Sha1Regs) : (r : Nat) → r ≤ 80 → Sha1Regs
  | 0, _ => x
  | r + 1, h => sha1Step ⟨r, by omega⟩ (sha1Steps w x r (by omega)) w

/-- Componentwise addition modulo `2^32`, the fold of R247. -/
def Sha1Regs.add (x y : Sha1Regs) : Sha1Regs := ⟨x.a + y.a, x.b + y.b, x.c + y.c, x.d + y.d, x.e + y.e⟩

/-- One block: `sha1_block(H, W, R)` (R247). -/
def sha1Block (h : Sha1Regs) (w : Vector Word 80) (r : Fin 81) : Sha1Regs :=
  h.add (sha1Steps w h r.val (by omega))

/-- The running accumulator after the first `n` blocks of the padded message (R248). -/
def sha1Blocks (msg : List Byte) (r : Fin 81) : Nat → Sha1Regs
  | 0 => sha1Init
  | n + 1 =>
    sha1Block (sha1Blocks msg r n) (sha1Schedule (blockWords .sha1 (padBlockByte .sha1 msg n))) r

/-- `sha1_rounds(msg, R)` for `R <= 80` (R248): the accumulator after all blocks. -/
def sha1Rounds (msg : List Byte) (r : Fin 81) : Sha1Regs := sha1Blocks msg r (nblk msg.length)

/-- The five words of a SHA-1 slot (R252). -/
def Sha1Regs.slotWords (x : Sha1Regs) : Vector Word 5 := #v[x.a, x.b, x.c, x.d, x.e]

end Sys2Proof.Machine
end

