-- ==== Sys2Proof/Machine/Engine.lean ====
section
/-! DEFINITION. The sequencer of a hash command (10_state.md R55 to R58): the micro-steps of R56 on the engine registers,
one phase or one mixing step at a time, and their run from `INIT` to `DONE`. A hash command runs the whole sequence
(00_scope.md R20). -/

namespace Sys2Proof.Machine

/-- What a hash command gives the sequencer: the algorithm and round count of the command word, and the message memory and
length as they stand when the command starts (R56, R113). -/
structure HashJob where
  alg    : Alg
  rounds : Word
  msg    : Memory
  len    : Word
  deriving DecidableEq, Repr

/-- Byte `q` of block `n` of the padded message, as the Padder makes it on the fly (R94, R180). -/
def HashJob.blockByte (j : HashJob) (n q : Nat) : Byte := padByte j.alg j.msg j.len.toNat (64 * n + q)

/-- The accumulator as the MD5 engine reads it: `H[0..3]` (R41). -/
def Engine.md5Acc (e : Engine) : Md5Regs := ⟨e.h[0], e.h[1], e.h[2], e.h[3]⟩

/-- The accumulator as the SHA-1 engine reads it: `H[0..4]` (R43). -/
def Engine.sha1Acc (e : Engine) : Sha1Regs := ⟨e.h[0], e.h[1], e.h[2], e.h[3], e.h[4]⟩

/-- The working registers `a..d` (R42). -/
def Engine.md5Work (e : Engine) : Md5Regs := ⟨e.a, e.b, e.c, e.d⟩

/-- The working registers `a..e` (R44). -/
def Engine.sha1Work (e : Engine) : Sha1Regs := ⟨e.a, e.b, e.c, e.d, e.e⟩

/-- Write of `H[0..3]`; the MD5 engine has no fifth word, and `H[4]` keeps its value (R41). -/
def Engine.setMd5Acc (e : Engine) (x : Md5Regs) : Engine := { e with h := #v[x.a, x.b, x.c, x.d, e.h[4]] }

/-- Write of `H[0..4]` (R43). -/
def Engine.setSha1Acc (e : Engine) (x : Sha1Regs) : Engine := { e with h := #v[x.a, x.b, x.c, x.d, x.e] }

/-- Write of `a..d` (R42). -/
def Engine.setMd5Work (e : Engine) (x : Md5Regs) : Engine := { e with a := x.a, b := x.b, c := x.c, d := x.d }

/-- Write of `a..e` (R44). -/
def Engine.setSha1Work (e : Engine) (x : Sha1Regs) : Engine :=
  { e with a := x.a, b := x.b, c := x.c, d := x.d, e := x.e }

/-- INIT (R56): `R`, `NB` and `H` take their values, `n <- 0`. -/
def Engine.doInit (j : HashJob) (e : Engine) : Engine :=
  let e' := { e with r := j.rounds, nb := BitVec.ofNat 27 (nblk j.len.toNat), n := 0, phase := .load }
  match j.alg with
  | .md5 => e'.setMd5Acc md5Init
  | .sha1 => e'.setSha1Acc sha1Init

/-- LOAD (R56, R207, R243): `M[0..15]` takes the words of block `n`. -/
def Engine.doLoad (j : HashJob) (e : Engine) : Engine :=
  { e with m := blockWords j.alg (j.blockByte e.n.toNat), phase := .expand }

/-- EXPAND (R56): for SHA-1 the schedule (R244), then the working registers take the accumulator and `k <- 0`. -/
def Engine.doExpand (j : HashJob) (e : Engine) : Engine :=
  match j.alg with
  | .md5 => { e.setMd5Work e.md5Acc with k := 0, phase := .mix }
  | .sha1 => { e.setSha1Work e.sha1Acc with w := sha1Schedule e.m, k := 0, phase := .mix }

/-- MIX (R56): one mixing step while `k < R`, then on to FOLD. A SHA-1 step with `k >= 80` has no meaning (R251): the
sequencer would stay where it is, and no command reaches it, for `SHA1.R` checks `R <= 80` first (R254). DESIGN CHOICE, log entry 12, safe. -/
def Engine.doMix (j : HashJob) (e : Engine) : Engine :=
  if e.k < e.r then
    match j.alg with
    | .md5 => { e.setMd5Work (md5Step e.k.toNat e.md5Work e.m) with k := e.k + 1 }
    | .sha1 =>
      if h : e.k.toNat < 80 then
        { e.setSha1Work (sha1Step ⟨e.k.toNat, h⟩ e.sha1Work e.w) with k := e.k + 1 }
      else e
  else { e with phase := .fold }

/-- FOLD (R56, R210, R247): the working registers are added into the accumulator, `n <- n + 1`, and the next block is
loaded if there is one. -/
def Engine.doFold (j : HashJob) (e : Engine) : Engine :=
  let e' := match j.alg with
    | .md5 => e.setMd5Acc (e.md5Acc.add e.md5Work)
    | .sha1 => e.setSha1Acc (e.sha1Acc.add e.sha1Work)
  { e' with n := e.n + 1, phase := if e.n + 1 < e.nb then .load else .done }

/-- One micro-step, by the phase (R56). In IDLE and DONE the sequencer does nothing by itself. -/
def Engine.microStep (j : HashJob) (e : Engine) : Engine :=
  match e.phase with
  | .idle => e
  | .init => e.doInit j
  | .load => e.doLoad j
  | .expand => e.doExpand j
  | .mix => e.doMix j
  | .fold => e.doFold j
  | .done => e

/-- `t` micro-steps. -/
def Engine.run (j : HashJob) : Nat → Engine → Engine
  | 0, e => e
  | t + 1, e => Engine.run j t (e.microStep j)

/-- The number of micro-steps from INIT to DONE: INIT, and for each block LOAD, EXPAND, `R` mixing steps, the end of the
loop, and FOLD (R56, R362). -/
def HashJob.microSteps (j : HashJob) : Nat := 1 + nblk j.len.toNat * (j.rounds.toNat + 4)

/-- The engine after the micro-sequence of a hash command, started in whatever state the engine was in. -/
def HashJob.result (j : HashJob) (e : Engine) : Engine := Engine.run j j.microSteps { e with phase := .init }

/-- The slot that DONE writes (R56): the algorithm's tag and the accumulator, with `w[4] = 0` for MD5 (R72). -/
def HashJob.slotOf (j : HashJob) (e : Engine) : Slot :=
  match j.alg with
  | .md5 => ⟨.md5, e.md5Acc.slotWords⟩
  | .sha1 => ⟨.sha1, e.sha1Acc.slotWords⟩

/-- How many free values one hash command uses. -/
def freePerHash : Nat := 110

/-- The engine between commands: `phase = IDLE` (R55), every register unspecified (D19, 93_implementation_defined.md U9), so
each is a free value of its own, numbered from `c` on (DESIGN CHOICE, log entry 4, safe). -/
def Engine.discarded (c : Nat) : Engine where
  h := Vector.ofFn fun i => Config.freeWord (c + i.val)
  a := Config.freeWord (c + 5)
  b := Config.freeWord (c + 6)
  c := Config.freeWord (c + 7)
  d := Config.freeWord (c + 8)
  e := Config.freeWord (c + 9)
  m := Vector.ofFn fun i => Config.freeWord (c + 10 + i.val)
  w := Vector.ofFn fun i => Config.freeWord (c + 26 + i.val)
  r := Config.freeWord (c + 106)
  phase := .idle
  n := (Config.freeWord (c + 107)).setWidth 27
  k := Config.freeWord (c + 108)
  nb := (Config.freeWord (c + 109)).setWidth 27

/-- The job of a hash command on the message loaded now (R56, R170). -/
def State.hashJob (s : State) (alg : Alg) (rounds : Word) : HashJob := ⟨alg, rounds, s.msg, s.len⟩

/-- The state after DONE (R56): `DG[rd]` is written whole, the phase is IDLE again and the engine registers are left
unspecified. -/
def afterHash (alg : Alg) (rounds : Word) (rd : SlotNo) (s : State) : State :=
  let j := s.hashJob alg rounds
  { s.setSlot rd (j.slotOf (j.result s.eng)) with
    eng := Engine.discarded s.free, free := s.free + freePerHash }

/-- A hash command (R56): the micro-sequence on the engine registers, its end, and the response `(OK, 0)`. -/
def runHash (alg : Alg) (rounds : Word) (rd : SlotNo) (s : State) : Host.Outcome State Fault Refusal :=
  done 0 (afterHash alg rounds rd s)

end Sys2Proof.Machine
end

