-- ==== Sys2Proof/Machine/Hash.lean ====
section
/-! DEFINITION. The hash commands `MD5`, `MD5.R`, `SHA1` and `SHA1.R` (41_md5_engine.md R214, R215; 42_sha1_engine.md R252,
R253). -/

namespace Sys2Proof.Machine

/-- `MD5 rd` (R214): 64 steps per block. -/
def execMd5 (rd : SlotNo) (s : State) : Host.Outcome State Fault Refusal :=
  whenRunning s (runHash .md5 64 rd s)

/-- `MD5.R rd, R` (R215): `R = imm` steps per block, for every `R`. -/
def execMd5R (rd : SlotNo) (rounds : Word) (s : State) : Host.Outcome State Fault Refusal :=
  whenRunning s (runHash .md5 rounds rd s)

/-- `SHA1 rd` (R252): 80 steps per block. -/
def execSha1 (rd : SlotNo) (s : State) : Host.Outcome State Fault Refusal :=
  whenRunning s (runHash .sha1 80 rd s)

/-- `SHA1.R rd, R` (R253): `E_ROUNDS` when `R` is above 80 (R254), else `R` steps per block. -/
def execSha1R (rd : SlotNo) (rounds : Word) (s : State) : Host.Outcome State Fault Refusal :=
  whenRunning s (if Config.sha1Rmax < immIndex rounds then fault .rounds s else runHash .sha1 rounds rd s)

end Sys2Proof.Machine
end

