-- ==== Sys2Proof/Machine/Message.lean ====
section
/-! DEFINITION. Message loading and the observation of the Padder: `MSG.CLR`, `MSG.PUSH`, `PAD.NBLK`, `PAD.BYTE.MD5`,
`PAD.BYTE.SHA1` (40_message_and_padder.md R172, R173, R181 to R183). -/

namespace Sys2Proof.Machine

/-- `LEN <- 0` (R172); the bytes of `MSG` are not erased (R92). -/
def clearMessage (s : State) : State := { s with len := 0 }

/-- `MSG.CLR` (R172). -/
def execMsgClr (s : State) : Host.Outcome State Fault Refusal :=
  whenRunning s (done 0 (clearMessage s))

/-- The byte appended and `LEN + 1` (R173, R93): the byte goes to address `LEN`, before the increment. -/
def appendByte (b : Byte) (s : State) : State :=
  { s with msg := s.msg.write s.len.toNat b, len := s.len + 1 }

/-- `MSG.PUSH byte` (R173): `E_ILLEGAL` when `imm[31:8] != 0` (the decoder makes no such command, R141), `E_MSGFULL` when
the memory is full, else the byte is appended. The rule writes the second check as `LEN = MSG_CAP`; `LEN` never passes `MSG_CAP` (R64), and the check is written so that no state at all
leads to a write at an address the memory does not have (R91; DEDUCED, log entry 5,
safe). -/
def execMsgPush (imm : Word) (s : State) : Host.Outcome State Fault Refusal :=
  whenRunning s
    (if pushOperandLegal imm then
       if s.cap ≤ s.len then fault .msgFull s
       else done 0 (appendByte (immByte imm) s)
     else fault .illegal s)

/-- `PAD.NBLK` (R181). -/
def execPadNblk (s : State) : Host.Outcome State Fault Refusal :=
  whenRunning s (done (zextNat (nblk s.len.toNat)) s)

/-- Byte `p` of the padded message as a response, or `E_INDEX` at or beyond the padded length (R182, R183). -/
def padByteResponse (alg : Alg) (p : Word) (s : State) : Host.Outcome State Fault Refusal :=
  withIndex s (immIndex p) (plen s.len.toNat)
    (done (zextByte (padByte alg s.msg s.len.toNat (immIndex p))) s)

/-- `PAD.BYTE.MD5 p` (R182). -/
def execPadByteMd5 (p : Word) (s : State) : Host.Outcome State Fault Refusal :=
  whenRunning s (padByteResponse .md5 p s)

/-- `PAD.BYTE.SHA1 p` (R183). -/
def execPadByteSha1 (p : Word) (s : State) : Host.Outcome State Fault Refusal :=
  whenRunning s (padByteResponse .sha1 p s)

end Sys2Proof.Machine
end

