-- ==== Sys2Proof/Machine/System.lean ====
section
/-! DEFINITION. The system command `CSR.RD` (44_system.md R300, R301) and the content of the control and status registers
(10_state.md R61 to R67). -/

namespace Sys2Proof.Machine

/-- `CSR[csr]` (R300): `none` for an index that R61 does not define. -/
def csrValue (s : State) (csr : Word) : Option Word :=
  match csr.toNat with
  | 0x000 => some idWord
  | 0x001 => some s.cap
  | 0x002 => some s.len
  | 0x003 => some (s.flt.setWidth 32)
  | 0x004 => some (s.fcmd.extractLsb' 0 32)
  | 0x005 => some (s.fcmd.extractLsb' 32 32)
  | 0x010 => some s.dg[0].tag.code
  | 0x011 => some s.dg[1].tag.code
  | 0x012 => some s.dg[2].tag.code
  | 0x013 => some s.dg[3].tag.code
  | _ => none

/-- `CSR.RD csr` (R300): the only command that CORE executes while halted as well (R301). An undefined index is an illegal
encoding: `E_ILLEGAL` while running, `E_HALTED` while halted. -/
def execCsrRd (csr : Word) (s : State) : Host.Outcome State Fault Refusal :=
  match csrValue s csr with
  | some v => done v s
  | none => illegalWord s

end Sys2Proof.Machine
end

