-- ==== Sys2Proof/Machine/Dispatch.lean ====
section
/-! DEFINITION. The meaning of each command, one arm per constructor. -/

namespace Sys2Proof.Machine

def exec (i : Instr) (s : State) : Host.Outcome State Fault Refusal :=
  match i with
  | .csrRd csr => Sys2Proof.Machine.execCsrRd csr s
  | .msgClr => Sys2Proof.Machine.execMsgClr s
  | .msgPush imm => Sys2Proof.Machine.execMsgPush imm s
  | .padNblk => Sys2Proof.Machine.execPadNblk s
  | .padByteMd5 p => Sys2Proof.Machine.execPadByteMd5 p s
  | .padByteSha1 p => Sys2Proof.Machine.execPadByteSha1 p s
  | .md5 rd => Sys2Proof.Machine.execMd5 rd s
  | .md5R rd rounds => Sys2Proof.Machine.execMd5R rd rounds s
  | .sha1 rd => Sys2Proof.Machine.execSha1 rd s
  | .sha1R rd rounds => Sys2Proof.Machine.execSha1R rd rounds s
  | .dgMov rd rs1 => Sys2Proof.Machine.execDgMov rd rs1 s
  | .dgWord rs1 j => Sys2Proof.Machine.execDgWord rs1 j s
  | .dgByte rs1 n => Sys2Proof.Machine.execDgByte rs1 n s
  | .dgHexc rs1 n => Sys2Proof.Machine.execDgHexc rs1 n s
  | .dgDiff rs1 rs2 => Sys2Proof.Machine.execDgDiff rs1 rs2 s

end Sys2Proof.Machine
end

