-- ==== Sys2Proof/Machine/Command.lean ====
section
/-! DEFINITION. What CORE does with the host's next input: a command word is decoded and executed or refused
(60_exceptions.md R320), and reset gives the reset state (70_reset_and_hazards.md R350, R353). -/

namespace Sys2Proof.Machine

/-- Taking the next input from the host's side. -/
def State.takeInput (s : State) (rest : List HostInput) : State := { s with pending := rest }

/-- The command word `cw` is presented whole (R133). -/
def State.present (s : State) (cw : CmdWord) : State := { s with cmd := cw }

/-- A command word presented to CORE (R320): a word that decodes is executed by its command's rule, which begins with the
halted check, and one that does not is illegal. -/
def runCommand (cw : CmdWord) (s : State) : Host.Outcome State Fault Refusal :=
  match decode cw with
  | .ok i => exec i (s.present cw)
  | .error _ => illegalWord (s.present cw)

/-- One input of the host (R19). A command cut short by reset leaves the reset state, whatever it had done so far, and no
response (R353). -/
def runInput : HostInput → State → Host.Outcome State Fault Refusal
  | .command cw, s => runCommand cw s
  | .reset, s => .next (hostReset s)
  | .resetDuring _, s => .next (hostReset s)

/-- The next input, if the host has one; without one nothing changes (R19: nothing else can change CORE's state). -/
def runNext (s : State) : Host.Outcome State Fault Refusal :=
  match s.pending with
  | [] => .next s
  | x :: rest => runInput x (s.takeInput rest)

/-- The state in which the next input is the command word whose bits are `w`, bits at and above `nbits` being 0. -/
def presentNext (s : State) (nbits w : Nat) : State :=
  { s with pending := .command (BitVec.ofNat 64 (w % 2 ^ nbits)) :: s.pending }

end Sys2Proof.Machine
end

