-- ==== Sys2Proof/Machine/Step.lean ====
section
/-! DEFINITION. One step of CORE: one input of the host, taken whole (00_scope.md R19). -/

namespace Sys2Proof.Machine

/-- One step (R19): the host's next command, executed to its response, or its reset. DESIGN CHOICE, log entry 9, safe. -/
def step (s : State) : Host.Outcome State Fault Refusal := runNext s

/-- `s` with the command word `w` as the next input. CORE fetches no instructions (R55): the host presents them. DEDUCED,
log entry 7, safe. -/
def State.withFetchWord (s : State) (nbits w : Nat) : State := presentNext s nbits w

end Sys2Proof.Machine
end

