-- ==== Sys2Proof/Safety.lean ====
section
/-! DEFINITION. What a safe run of CORE is, and the invariant of its states. -/

namespace Sys2Proof

/-- CORE has not gone wrong: "a model should treat `FLT != 0` as gone wrong" (60_exceptions.md R325). -/
def Safe (s : Machine.State) : Prop := s.flt = 0

/-- What the spec says of every state that CORE can be in between commands. -/
structure StateInv (s : Machine.State) : Prop where
  /-- The memory is in canonical form. -/
  msgCanonical : s.msg.wf = true
  /-- Only addresses of the memory, `0 .. MSG_CAP - 1`, hold a byte (R91). -/
  msgInside : ∀ a, (s.msg.read a).isSome = true → a < s.cap.toNat
  /-- Every byte of the message was written (R80). -/
  msgLoaded : ∀ a, a < s.len.toNat → (s.msg.read a).isSome = true
  /-- `1 <= MSG_CAP <= 2^32 - 64` (R9). -/
  capLegal : 1 ≤ s.cap.toNat ∧ s.cap.toNat ≤ 2 ^ 32 - 64
  /-- `0 <= LEN <= MSG_CAP` (R64). -/
  lenLegal : s.len.toNat ≤ s.cap.toNat
  /-- `FLT` is 0 or one of the codes 1 to 6 (R65). -/
  fltLegal : s.flt.toNat ≤ 6
  /-- `FCMD` is 0 while `FLT = 0` (R66). -/
  fcmdClear : s.flt = 0 → s.fcmd = 0
  /-- `w[4]` of a slot with tag `MD5` is 0 (R72). -/
  md5Fifth : ∀ d, (s.slot d).tag = .md5 → (s.slot d).w[4] = 0
  /-- Between commands `phase = IDLE` (R55). -/
  idle : s.eng.phase = .idle

end Sys2Proof
end

