-- ==== Sys2Proof/Certificates/Slice0/Obligations.lean ====
section
/-! DEFINITION. The statements about CORE for the provers, one `def Obligations.<Name> : Prop` each. The rule of the spec
that a statement formalises stands in its docstring. -/

open Sys2Proof Sys2Proof.Machine

namespace Sys2Proof.Claims

/-! ### Words the statements are written in -/

/-- The state after the response `(OK, v)` when nothing else changes. -/
def answered (v : Word) (s : State) : State := { s with resp := some ⟨0, v⟩ }

/-- The state after a fault with the code `c` when the command word presented is `cw`: `FLT`, `FCMD` and the response, and
nothing else (R322). -/
def faultedWith (c : BitVec 8) (cw : CmdWord) (s : State) : State :=
  { s with flt := c, fcmd := cw, resp := some ⟨c, 0⟩ }

/-- The state in which the command word `cw` is being executed, the host's later inputs being `rest`. -/
def presented (cw : CmdWord) (rest : List HostInput) (s : State) : State := { s with pending := rest, cmd := cw }

/-- How a command uses the field `imm` (the `fields` column of R138). -/
inductive ImmUse where
  | unused | byte | csrIndex | full
  deriving DecidableEq, Repr

/-- Which fields a command uses (the `fields` column of R138). -/
structure FieldUse where
  op  : BitVec 8
  rd  : Bool
  rs1 : Bool
  rs2 : Bool
  imm : ImmUse
  deriving DecidableEq, Repr

/-- The `op` and `fields` columns of R138, row by row. -/
def fieldUses : List FieldUse :=
  [ ⟨0x01, false, false, false, .csrIndex⟩, ⟨0x10, false, false, false, .unused⟩, ⟨0x11, false, false, false, .byte⟩,
    ⟨0x18, false, false, false, .unused⟩, ⟨0x19, false, false, false, .full⟩, ⟨0x1A, false, false, false, .full⟩,
    ⟨0x20, true, false, false, .unused⟩, ⟨0x21, true, false, false, .full⟩, ⟨0x30, true, false, false, .unused⟩,
    ⟨0x31, true, false, false, .full⟩, ⟨0x40, true, true, false, .unused⟩, ⟨0x41, false, true, false, .full⟩,
    ⟨0x42, false, true, false, .full⟩, ⟨0x43, false, true, false, .full⟩, ⟨0x44, false, true, true, .unused⟩ ]

/-- A slot field that a command uses must be below 4, one that it does not use must be 0 (R132). -/
def slotFieldOk (used : Bool) (f : BitVec 4) : Prop := if used then f.toNat < 4 else f = 0

/-- What `imm` must be (R132, R135, R145). -/
def immOk : ImmUse → Word → Prop
  | .unused, imm => imm = 0
  | .byte, imm => imm.toNat < 256
  | .csrIndex, imm => imm.toNat ≤ 0x005 ∨ (0x010 ≤ imm.toNat ∧ imm.toNat ≤ 0x013)
  | .full, _ => True

/-- The command word whose fields are the given ones (R131). -/
def wordOf (op : BitVec 8) (rd rs1 rs2 : BitVec 4) (zero : BitVec 12) (imm : Word) : CmdWord :=
  op ++ rd ++ rs1 ++ rs2 ++ zero ++ imm

/-- The fields make a legal command word (R132, R140 to R142, R145). -/
def LegalFields (op : BitVec 8) (rd rs1 rs2 : BitVec 4) (zero : BitVec 12) (imm : Word) : Prop :=
  ∃ u ∈ fieldUses, u.op = op ∧ slotFieldOk u.rd rd ∧ slotFieldOk u.rs1 rs1 ∧ slotFieldOk u.rs2 rs2 ∧
    zero = 0 ∧ immOk u.imm imm

/-- The command word with the given `op` and operands, every other field 0 (R131, R132). -/
def word (op : BitVec 8) (rd rs1 rs2 : SlotNo) (imm : Word) : CmdWord :=
  wordOf op (BitVec.ofNat 4 rd.val) (BitVec.ofNat 4 rs1.val) (BitVec.ofNat 4 rs2.val) 0 imm

/-- The reserved values of `op` as R140 lists them. -/
def reservedValue (n : Nat) : Bool :=
  n == 0x00 || (0x02 ≤ n && n ≤ 0x0F) || (0x12 ≤ n && n ≤ 0x17) || (0x1B ≤ n && n ≤ 0x1F) || (0x22 ≤ n && n ≤ 0x2F) ||
    (0x32 ≤ n && n ≤ 0x3F) || (0x45 ≤ n && n ≤ 0xFF)

/-- `tagcode` as R300 and R67 write it: `EMPTY` 0, `MD5` 1, `SHA1` 2. -/
def tagNumber (t : Tag) : Word :=
  match t with
  | .empty => 0
  | .md5 => 1
  | .sha1 => 2

/-- `CSR[csr]` as the table of R300 writes it. -/
def csrTable (s : State) : List (Word × Word) :=
  [ (0x000, 0x4D355331), (0x001, s.cap), (0x002, s.len), (0x003, s.flt.setWidth 32),
    (0x004, s.fcmd.setWidth 32), (0x005, (s.fcmd >>> 32).setWidth 32),
    (0x010, tagNumber (s.slot 0).tag), (0x011, tagNumber (s.slot 1).tag),
    (0x012, tagNumber (s.slot 2).tag), (0x013, tagNumber (s.slot 3).tag) ]

/-- The reset state as R351 lists it, of a CORE with capacity `cap`, with no response delivered (R353). -/
def IsResetState (cap : Word) (t : State) : Prop :=
  t.len = 0 ∧ (∀ d, (t.slot d).tag = .empty) ∧ t.flt = 0 ∧ t.fcmd = 0 ∧ t.eng.phase = .idle ∧ t.cap = cap ∧
    t.resp = none ∧ csrValue t 0x000 = some 0x4D355331 ∧ csrValue t 0x001 = some cap

/-- What a recorded fault says of the command word recorded with it (the "Raised by" column of R311). -/
def FaultExplained (s : State) : Prop :=
  s.flt = 0 ∨
  (s.flt = 1 ∧ ∃ e, decode s.fcmd = .error e) ∨
  (s.flt = 2 ∧ ∃ imm, decode s.fcmd = .ok (.msgPush imm)) ∨
  (s.flt = 3 ∧ ∃ rd r, decode s.fcmd = .ok (.sha1R rd r) ∧ r = s.fcmd.setWidth 32 ∧ 80 < r.toNat) ∨
  (s.flt = 4 ∧ ∃ d d' n, decode s.fcmd ∈ [.ok (.dgMov d d'), .ok (.dgWord d n), .ok (.dgByte d n), .ok (.dgHexc d n),
    .ok (.dgDiff d d')]) ∨
  (s.flt = 5 ∧ ∃ d d', decode s.fcmd = .ok (.dgDiff d d')) ∨
  (s.flt = 6 ∧ ∃ d n, n = s.fcmd.setWidth 32 ∧ decode s.fcmd ∈ [.ok (.padByteMd5 n), .ok (.padByteSha1 n),
    .ok (.dgWord d n), .ok (.dgByte d n), .ok (.dgHexc d n)])

/-- The value of bytes whose first is least significant. -/
def leValue : List Byte → Nat
  | [] => 0
  | b :: rest => b.toNat + 256 * leValue rest

/-- The code of the lowercase hexadecimal digit of a value up to 15 (R273). -/
def lowercaseDigit (v : Nat) : Nat := if v ≤ 9 then 0x30 + v else 0x61 + (v - 10)

/-- `2^n * x` on a word, modulo `2^32`. -/
def timesPow2 (n : Nat) (x : Word) : Word := BitVec.ofNat 32 (2 ^ n * x.toNat)

/-- A hash command's next state: the slot `rd` written whole, `(OK, 0)`, the phase IDLE, and nothing else of CORE changed
but the engine registers, which are unspecified between commands (R49, R214; `free` counts the model's free values). -/
def HashWrote (rd : SlotNo) (x : Slot) (s t : State) : Prop :=
  t = { s with dg := s.dg.set rd x, eng := t.eng, free := t.free, resp := some ⟨0, 0⟩ } ∧ t.eng.phase = .idle

end Sys2Proof.Claims

open Sys2Proof.Claims

/-! ### Encoding -/

/-- R150: the worked encodings. Each command encodes to its word and the word decodes to it; the three illegal words decode
to no command. -/
def Obligations.WorkedEncodings : Prop :=
  (∀ p ∈ ([ (.csrRd 0x003, 0x0100000000000003), (.msgClr, 0x1000000000000000), (.msgPush 0x61, 0x1100000000000061),
      (.padNblk, 0x1800000000000000), (.padByteMd5 56, 0x1900000000000038), (.padByteSha1 63, 0x1A0000000000003F),
      (.md5 0, 0x2000000000000000), (.md5R 1 32, 0x2110000000000020), (.sha1 2, 0x3020000000000000),
      (.sha1R 3 80, 0x3130000000000050), (.dgMov 0 1, 0x4001000000000000), (.dgWord 2 4, 0x4102000000000004),
      (.dgByte 0 15, 0x420000000000000F), (.dgHexc 3 39, 0x4303000000000027),
      (.dgDiff 0 1, 0x4400100000000000) ] : List (Instr × CmdWord)),
    encode p.1 = p.2 ∧ decode p.2 = .ok p.1) ∧
  (∀ cw ∈ ([0x2040000000000000, 0x1100000000000100, 0x2000000000000040] : List CmdWord),
    ∃ e, decode cw = .error e)

/-- R131, R135, R138: decoding the command word of any well-formed command gives the command back, every operand at every
value. -/
def Obligations.DecodeOfEncode : Prop := ∀ i : Instr, i.wf = true → decode (encode i) = .ok i

/-- R132: what decodes is a well-formed command whose encoding is the word itself, so no bit of a command word is
ignored. -/
def Obligations.EncodeOfDecode : Prop := ∀ cw i, decode cw = .ok i → i.wf = true ∧ encode i = cw

/-- R132: a word is a command exactly when its fields are legal; the masks of R138 say the same as its `fields` column. Two
different command words never mean the same command. -/
def Obligations.LegalExactlyByFields : Prop :=
  (∀ op rd rs1 rs2 zero imm,
    (∃ i, decode (wordOf op rd rs1 rs2 zero imm) = .ok i) ↔ LegalFields op rd rs1 rs2 zero imm) ∧
  (∀ cw cw' i, decode cw = .ok i → decode cw' = .ok i → cw = cw')

/-- R134: at most one row of the opcode table matches a command word. -/
def Obligations.RowsDoNotOverlap : Prop :=
  ∀ cw, ∀ r ∈ opTable, ∀ r' ∈ opTable, r.selects cw = true → r'.selects cw = true → r = r'

/-! ### A command word presented to CORE -/

/-- R320: a word that decodes is executed by the meaning of its command, on the state in which it is presented; the step
adds taking the input and holding the word. -/
def Obligations.StepRunsDecodedCommand : Prop :=
  ∀ s cw rest i, s.pending = .command cw :: rest → decode cw = .ok i → step s = exec i (presented cw rest s)

/-- R141, R142, R145, R312: presented to a running CORE, a word with illegal fields faults with `E_ILLEGAL`, is recorded
whole, and changes nothing else. -/
def Obligations.IllegalFieldsFault : Prop :=
  ∀ s op rd rs1 rs2 zero imm rest, s.flt = 0 →
    s.pending = .command (wordOf op rd rs1 rs2 zero imm) :: rest → ¬ LegalFields op rd rs1 rs2 zero imm →
    step s = .next (faultedWith 1 (wordOf op rd rs1 rs2 zero imm)
      (presented (wordOf op rd rs1 rs2 zero imm) rest s))

/-- R140: 241 values of `op` are reserved, and a word with a reserved `op` faults with `E_ILLEGAL`; the all-zero and the
all-ones word are among them. -/
def Obligations.ReservedOpcodesFault : Prop :=
  ((List.range 256).filter reservedValue).length = 241 ∧
  (∀ s cw rest, s.flt = 0 → s.pending = .command cw :: rest →
    (reservedValue (cw.extractLsb' 56 8).toNat = true ∨ cw = 0 ∨ cw = BitVec.allOnes 64) →
    step s = .next (faultedWith 1 cw (presented cw rest s)))

/-- R310: a command word has exactly one of three outcomes. Success: status 0 and no fault recorded. Fault: a code 1 to 6
answered by a CORE that was running, and no state changes except `FLT` and `FCMD`. Refusal while halted: status `0x7F`
and nothing changes at all. There is no fourth outcome, and always a response. -/
def Obligations.EveryCommandHasOneOfThreeOutcomes : Prop :=
  ∀ s cw rest, s.pending = .command cw :: rest → ∃ t r, step s = .next t ∧ t.resp = some r ∧ t.pending = rest ∧
    ((r.status = 0 ∧ t.flt = s.flt ∧ t.fcmd = s.fcmd) ∨
     (1 ≤ r.status.toNat ∧ r.status.toNat ≤ 6 ∧ r.value = 0 ∧ s.flt = 0 ∧
       t = faultedWith r.status cw (presented cw rest s)) ∨
     (r.status = 0x7F ∧ r.value = 0 ∧ s.flt ≠ 0 ∧ t = { presented cw rest s with resp := some r }))

/-- R301, R325: while halted CORE executes only a legal `CSR.RD`, whose response is `(OK, CSR[csr])`; every other command
word gets `(E_HALTED, 0)`, and nothing changes either way. -/
def Obligations.HaltedCoreAnswersOnlyCsrRead : Prop :=
  ∀ s cw rest, s.flt ≠ 0 → s.pending = .command cw :: rest →
    (∀ csr v, decode cw = .ok (.csrRd csr) → (csr, v) ∈ csrTable s →
      step s = .next (answered v (presented cw rest s))) ∧
    ((¬ ∃ csr, decode cw = .ok (.csrRd csr)) →
      step s = .next { presented cw rest s with resp := some ⟨0x7F, 0⟩ })

/-- R326, R327: without a reset a halted CORE stays halted with the fault and the command word first recorded, whatever
commands the host presents and however many; the message, the slots and the engine do not change either. -/
def Obligations.HaltedUntilReset : Prop :=
  ∀ (k : Nat) (s : State), ¬ Safe s → (∀ x ∈ s.pending.take k, ∃ cw, x = .command cw) →
    ∃ t : State, Host.Core.run Sys2Proof.core k s = .next t ∧ t.flt = s.flt ∧ t.fcmd = s.fcmd ∧ t.msg = s.msg ∧
      t.len = s.len ∧ t.cap = s.cap ∧ t.dg = s.dg ∧ t.eng = s.eng

/-! ### Reset and the invariant -/

/-- R350, R351, R353: reset, between commands or during one, gives the reset state and no response, in every state, halted
or not. The state after reset is one too. -/
def Obligations.ResetGivesResetState : Prop :=
  (∀ s x rest, s.pending = x :: rest → (x = .reset ∨ ∃ cw, x = .resetDuring cw) →
    ∃ t, step s = .next t ∧ IsResetState s.cap t ∧ t.pending = rest) ∧
  IsResetState State.reset.cap State.reset

/-- The two invariants of CORE's states hold after reset. (That `MSG_CAP` is from 1 to `2^32 - 64` is R9; that the fifth
word of a slot is 0 rests on the reset tags alone, not on the words that log entry 2 chose.) -/
def Obligations.ResetMeetsInvariant : Prop := StateInv State.reset ∧ FaultExplained State.reset

/-- Every step keeps the invariant: the memory canonical and inside its capacity, every message byte written, the capacity
legal and `LEN` at most it, `FLT` one of its codes, `FCMD` 0 while running, `w[4]` of an MD5 slot 0, the phase IDLE. -/
def Obligations.StepKeepsInvariant : Prop := ∀ s t, StateInv s → step s = .next t → StateInv t

/-- R311: `FLT` and `FCMD` tell the cause. Every step keeps it that a recorded code is one of 1 to 6 and that the word
recorded with it is a command that raises this code (for `E_ILLEGAL`, no command), `FCMD[31:0]` being the round count or
the index where R311 says so. -/
def Obligations.RecordedFaultIsExplained : Prop := ∀ s t, FaultExplained s → step s = .next t → FaultExplained t

/-! ### Control registers -/

/-- R300: `CSR.RD` returns the register, running or halted, the tag codes being 0 for `EMPTY`, 1 for `MD5` and 2 for `SHA1`,
and changes nothing; an undefined index is `E_ILLEGAL`, only
while CORE is running. -/
def Obligations.CsrReadAnswersRegister : Prop :=
  (∀ s csr v, (csr, v) ∈ csrTable s →
    decode (word 0x01 0 0 0 csr) = .ok (.csrRd csr) ∧ exec (.csrRd csr) s = .next (answered v s)) ∧
  (∀ s csr, csr ∉ (csrTable s).map (·.1) →
    (∃ e, decode (word 0x01 0 0 0 csr) = .error e) ∧
    (s.flt = 0 → exec (.csrRd csr) s = .next (faultedWith 1 s.cmd s)) ∧
    (s.flt ≠ 0 → exec (.csrRd csr) s = .next { s with resp := some ⟨0x7F, 0⟩ }))

/-! ### The message and the Padder -/

/-- R172: `MSG.CLR` makes `LEN` 0, erases no byte of `MSG` and changes nothing else; the message is then empty. -/
def Obligations.MsgClrEmptiesMessage : Prop :=
  decode (word 0x10 0 0 0 0) = .ok .msgClr ∧
  ∀ s, s.flt = 0 → ∃ t, exec .msgClr s = .next t ∧ t = { s with len := 0, resp := some ⟨0, 0⟩ } ∧ t.message = []

/-- R173: `MSG.PUSH` appends `imm[7:0]` to the message: the byte at address `LEN` is written, every other byte of `MSG`
stays, `LEN` grows by 1. When the memory is full it faults with `E_MSGFULL`, and `MSG` and `LEN` are unchanged. With
`imm[31:8] != 0` the word is no command, and a term made with such an operand faults with `E_ILLEGAL`. -/
def Obligations.MsgPushAppends : Prop :=
  (∀ s imm, s.flt = 0 → imm.toNat < 256 → s.len < s.cap → ∃ t, exec (.msgPush imm) s = .next t ∧
    t = { s with msg := t.msg, len := s.len + 1, resp := some ⟨0, 0⟩ } ∧ t.len.toNat = s.len.toNat + 1 ∧
    t.msg.read s.len.toNat = some (imm.setWidth 8) ∧
    (∀ a, a ≠ s.len.toNat → t.msg.read a = s.msg.read a) ∧
    t.message = s.message ++ [imm.setWidth 8]) ∧
  (∀ s imm, s.flt = 0 → imm.toNat < 256 → s.len = s.cap → exec (.msgPush imm) s = .next (faultedWith 2 s.cmd s)) ∧
  (∀ imm : Word, imm.toNat < 256 → decode (word 0x11 0 0 0 imm) = .ok (.msgPush imm)) ∧
  (∀ imm : Word, 256 ≤ imm.toNat → (∃ e, decode (word 0x11 0 0 0 imm) = .error e) ∧
    ∀ s, s.flt = 0 → exec (.msgPush imm) s = .next (faultedWith 1 s.cmd s))

/-- R93: a step leaves `MSG` and `LEN` alone unless its input is reset, `MSG.CLR` (which erases no byte) or `MSG.PUSH` (which
writes no byte but the one at address `LEN`); and no input changes the capacity (R63). -/
def Obligations.MessageChangesOnlyByItsCommands : Prop :=
  ∀ s t, step s = .next t → t.cap = s.cap ∧
    ((t.msg = s.msg ∧ t.len = s.len) ∨
     (∃ rest, s.pending = .reset :: rest) ∨ (∃ cw rest, s.pending = .resetDuring cw :: rest) ∨
     (∃ cw rest, s.pending = .command cw :: rest ∧ decode cw = .ok .msgClr ∧ t.msg = s.msg) ∨
     (∃ cw rest imm, s.pending = .command cw :: rest ∧ decode cw = .ok (.msgPush imm) ∧ t.len = s.len + 1 ∧
       ∀ a, a ≠ s.len.toNat → t.msg.read a = s.msg.read a))

/-- R175: the number of zero bytes is the least that brings the length to 56 modulo 64, at most 63, by the closed form, and
the padding adds one block beyond the full ones, or two from `r = 56` on. -/
def Obligations.ZeroCountIsLeast : Prop :=
  ∀ l : Nat, (l + 1 + zeroCount l) % 64 = 56 ∧ (∀ z, (l + 1 + z) % 64 = 56 → zeroCount l ≤ z) ∧ zeroCount l ≤ 63 ∧
    (l % 64 ≤ 55 → zeroCount l = 55 - l % 64) ∧ (56 ≤ l % 64 → zeroCount l = 119 - l % 64) ∧
    (l % 64 ≤ 55 → nblk l = l / 64 + 1) ∧ (56 ≤ l % 64 → nblk l = l / 64 + 2)

/-- R177: the padded length is `L + 1 + z(L) + 8`, `64 * nblk(L)` with `nblk(L) = (L + 8) div 64 + 1`, strictly above `L`
by 9 (at `r = 55`) to 72 (at `r = 56`), and within its bounds for every message that CORE can hold. -/
def Obligations.PaddedLength : Prop :=
  ∀ (alg : Alg) (msg : List Byte),
    (pad alg msg).length = msg.length + 1 + zeroCount msg.length + 8 ∧
    (pad alg msg).length = 64 * nblk msg.length ∧ nblk msg.length = (msg.length + 8) / 64 + 1 ∧
    msg.length + 9 ≤ (pad alg msg).length ∧ (pad alg msg).length ≤ msg.length + 72 ∧
    (msg.length % 64 = 55 → (pad alg msg).length = msg.length + 9) ∧
    (msg.length % 64 = 56 → (pad alg msg).length = msg.length + 72) ∧
    (msg.length ≤ 2 ^ 32 - 64 → nblk msg.length ≤ 2 ^ 26 ∧ (pad alg msg).length ≤ 2 ^ 32)

/-- R179, R174: the padded message begins with the message, then `0x80`, then zeros up to the last 8 bytes, which decode in
the algorithm's byte order to `8 * L`, for every message whose bit length fits the field (R176; log entry 16). -/
def Obligations.PaddedMessageContract : Prop :=
  ∀ (alg : Alg) (msg : List Byte), 8 * msg.length < 2 ^ 64 →
    (pad alg msg).length % 64 = 0 ∧ msg.length < (pad alg msg).length ∧
    (pad alg msg).take msg.length = msg ∧ (pad alg msg)[msg.length]? = some 0x80 ∧
    (∀ p, msg.length < p → p < (pad alg msg).length - 8 → (pad alg msg)[p]? = some 0x00) ∧
    leValue (match alg with
      | .md5 => (pad alg msg).drop ((pad alg msg).length - 8)
      | .sha1 => ((pad alg msg).drop ((pad alg msg).length - 8)).reverse) = 8 * msg.length

/-- R178: the Padder's byte `p`, made from `MSG` and `LEN` without building the sequence, is byte `p` of the padded message,
for both algorithms and every state, and it is the byte that the four cases of the rule give. -/
def Obligations.PadByteIsByteOfPaddedMessage : Prop :=
  ∀ (s : State) (alg : Alg) (p : Nat), p < 64 * nblk s.len.toNat →
    let l := s.len.toNat
    let q := p - (64 * nblk l - 8)
    let b := padByte alg s.msg l p
    (pad alg s.message)[p]? = some b ∧
    (p < l → b = s.msg.byteAt p) ∧ (p = l → b = 0x80) ∧ (l < p → p < 64 * nblk l - 8 → b = 0x00) ∧
    (64 * nblk l - 8 ≤ p → alg = .md5 → b.toNat = 8 * l / 2 ^ (8 * q) % 256) ∧
    (64 * nblk l - 8 ≤ p → alg = .sha1 → b.toNat = 8 * l / 2 ^ (8 * (7 - q)) % 256)

/-- R98: the last 8 bytes of the padded message are the bit length, least significant byte first for MD5 and most
significant byte first for SHA-1, and so are the words 14 and 15 of the last block, for every message whose bit length
fits the field (R176; log entry 16). -/
def Obligations.LengthWordsOfLastBlock : Prop :=
  ∀ msg : List Byte, 8 * msg.length < 2 ^ 64 →
    let md5Words := blockWords .md5 (padBlockByte .md5 msg (nblk msg.length - 1))
    let sha1Words := blockWords .sha1 (padBlockByte .sha1 msg (nblk msg.length - 1))
    (pad .md5 msg).drop ((pad .md5 msg).length - 8) = leBytes64 (BitVec.ofNat 64 (8 * msg.length)) ∧
    (pad .sha1 msg).drop ((pad .sha1 msg).length - 8) = beBytes64 (BitVec.ofNat 64 (8 * msg.length)) ∧
    md5Words[14].toNat = 8 * msg.length % 2 ^ 32 ∧ md5Words[15].toNat = 8 * msg.length / 2 ^ 32 ∧
    sha1Words[14].toNat = 8 * msg.length / 2 ^ 32 ∧ sha1Words[15].toNat = 8 * msg.length % 2 ^ 32

/-- R181: `PAD.NBLK` returns the number of 64-byte blocks of the padded message, the same for both algorithms, and changes
nothing. -/
def Obligations.PadNblkAnswersBlockCount : Prop :=
  decode (word 0x18 0 0 0 0) = .ok .padNblk ∧
  ∀ s, s.flt = 0 → ∃ v : Word, exec .padNblk s = .next (answered v s) ∧ v.toNat = (s.len.toNat + 8) / 64 + 1 ∧
    ∀ alg, 64 * v.toNat = (pad alg s.message).length

/-- R182, R183: `PAD.BYTE.*` returns byte `p` of the padded message of its algorithm and changes nothing; at or beyond the
padded length it faults with `E_INDEX`. -/
def Obligations.PadByteAnswersPaddedByte : Prop :=
  (∀ p, decode (word 0x19 0 0 0 p) = .ok (.padByteMd5 p) ∧ decode (word 0x1A 0 0 0 p) = .ok (.padByteSha1 p)) ∧
  ∀ s p, s.flt = 0 →
    (∀ b, (pad .md5 s.message)[p.toNat]? = some b → exec (.padByteMd5 p) s = .next (answered (b.setWidth 32) s)) ∧
    (∀ b, (pad .sha1 s.message)[p.toNat]? = some b → exec (.padByteSha1 p) s = .next (answered (b.setWidth 32) s)) ∧
    (64 * nblk s.len.toNat ≤ p.toNat →
      exec (.padByteMd5 p) s = .next (faultedWith 6 s.cmd s) ∧
      exec (.padByteSha1 p) s = .next (faultedWith 6 s.cmd s))

/-! ### The engines -/

/-- R14: a rotation by `n` moves bit `i` to bit `(i + n) mod 32`, a rotation by 0 changes nothing, and for `n` from 1 to 31
the result is the two shifts joined. -/
def Obligations.RotationMovesBits : Prop :=
  (∀ (x : Word) (n i : Nat), n ≤ 31 → i < 32 → (rotl32 x n).getLsbD ((i + n) % 32) = x.getLsbD i) ∧
  (∀ x : Word, rotl32 x 0 = x) ∧
  (∀ (x : Word) (n : Nat), 0 < n → n ≤ 31 → (rotl32 x n).toNat = (x.toNat * 2 ^ n % 2 ^ 32) ||| (x.toNat / 2 ^ (32 - n)))

/-- R209, R213: a step with the counter `k + 64` is the step with the counter `k`, so `64 + r` steps of a block run the
64-entry table and then `r` more steps on the same registers, before one fold. -/
def Obligations.Md5StepsWrap : Prop :=
  (∀ k x m, md5Step (k + 64) x m = md5Step k x m) ∧
  (∀ m x r, md5Steps m x (64 + r) = md5Steps m (md5Steps m x 64) r)

/-- R212, R249: at round count 0 each block doubles the accumulator, so the digest is `2^NB` times the initial values
modulo `2^32`, whatever the bytes of the message, and all zeros from 32 blocks on. -/
def Obligations.ZeroRoundsDoubleTheAccumulator : Prop :=
  (∀ h m, md5Block h m 0 = h.add h) ∧ (∀ h w, sha1Block h w 0 = h.add h) ∧
  ∀ msg : List Byte,
    md5Rounds msg 0 = ⟨timesPow2 (nblk msg.length) 0x67452301, timesPow2 (nblk msg.length) 0xEFCDAB89,
      timesPow2 (nblk msg.length) 0x98BADCFE, timesPow2 (nblk msg.length) 0x10325476⟩ ∧
    sha1Rounds msg 0 = ⟨timesPow2 (nblk msg.length) 0x67452301, timesPow2 (nblk msg.length) 0xEFCDAB89,
      timesPow2 (nblk msg.length) 0x98BADCFE, timesPow2 (nblk msg.length) 0x10325476,
      timesPow2 (nblk msg.length) 0xC3D2E1F0⟩ ∧
    (32 ≤ nblk msg.length → md5Rounds msg 0 = ⟨0, 0, 0, 0⟩ ∧ sha1Rounds msg 0 = ⟨0, 0, 0, 0, 0⟩)

/-- R213, R250: with at most 16 steps only the first `R` words of the block influence the working registers, in both
engines; for SHA-1 the expansion then has no influence. -/
def Obligations.FewStepsReadFewWords : Prop :=
  ∀ (r : Nat) (hr : r ≤ 16) (m m' : Vector Word 16), (∀ (j : Nat) (hj : j < r), m[j] = m'[j]) →
    (∀ x, md5Steps m x r = md5Steps m' x r) ∧
    (∀ x, sha1Steps (sha1Schedule m) x r (by omega) = sha1Steps (sha1Schedule m') x r (by omega))

/-- R244, R47: the schedule begins with the block's words, and every later word follows from four earlier ones. -/
def Obligations.ScheduleFollowsRecurrence : Prop :=
  ∀ m : Vector Word 16,
    (∀ (i : Nat) (hi : i < 16), (sha1Schedule m)[i] = m[i]) ∧
    (∀ (i : Nat) (hi : 16 ≤ i) (h : i < 80), (sha1Schedule m)[i] =
      rotl32 ((sha1Schedule m)[i - 3] ^^^ (sha1Schedule m)[i - 8] ^^^ (sha1Schedule m)[i - 14] ^^^
        (sha1Schedule m)[i - 16]) 1)

/-- R20, R56, R358: the micro-sequence, started with the engine registers in any state, ends in DONE with every block done
and the accumulator equal to `md5_rounds(msg, R)`, or to `sha1_rounds(msg, R)` for `R <= 80`: nothing stale is left in
it. -/
def Obligations.MicroSequenceComputesDigest : Prop :=
  (∀ (e : Engine) (r : Word) (m : Memory) (len : Word),
    let j : HashJob := ⟨.md5, r, m, len⟩
    (j.result e).phase = .done ∧ (j.result e).r = r ∧ (j.result e).nb.toNat = nblk len.toNat ∧
      (j.result e).n = (j.result e).nb ∧ (j.result e).k = r ∧
      (j.result e).md5Acc = md5Rounds (m.bytes len.toNat) r.toNat) ∧
  (∀ (e : Engine) (r : Fin 81) (m : Memory) (len : Word),
    let j : HashJob := ⟨.sha1, BitVec.ofNat 32 r.val, m, len⟩
    (j.result e).phase = .done ∧ (j.result e).r = BitVec.ofNat 32 r.val ∧ (j.result e).nb.toNat = nblk len.toNat ∧
      (j.result e).n = (j.result e).nb ∧ (j.result e).k = BitVec.ofNat 32 r.val ∧
      (j.result e).sha1Acc = sha1Rounds (m.bytes len.toNat) r)

/-- R214: `MD5 rd` completes in every running state and writes the 64-step digest of the message to `DG[rd]`, with tag
`MD5` and `w[4] = 0`; `MSG`, `LEN`, the other slots, `FLT` and `FCMD` are unchanged. -/
def Obligations.Md5WritesStandardDigest : Prop :=
  (∀ rd, decode (word 0x20 rd 0 0 0) = .ok (.md5 rd)) ∧
  ∀ s rd, s.flt = 0 → ∃ t, exec (.md5 rd) s = .next t ∧
    HashWrote rd ⟨.md5, (md5Rounds s.message 64).slotWords⟩ s t

/-- R215, R216: `MD5.R rd, R` completes in every running state, for every `R`, and writes the digest of the message with
`R` steps a block to `DG[rd]`, with tag `MD5` and `w[4] = 0`, and nothing else but the engine registers; at `R = 64` it
is `MD5 rd`. -/
def Obligations.Md5RWritesRoundDigest : Prop :=
  (∀ rd r, decode (word 0x21 rd 0 0 r) = .ok (.md5R rd r)) ∧
  ∀ s rd r, s.flt = 0 →
    (∃ t, exec (.md5R rd r) s = .next t ∧ HashWrote rd ⟨.md5, (md5Rounds s.message r.toNat).slotWords⟩ s t) ∧
    exec (.md5R rd 64) s = exec (.md5 rd) s

/-- R252: `SHA1 rd` completes in every running state and writes the 80-step digest of the message to `DG[rd]`, with tag
`SHA1`, and nothing else but the engine registers. -/
def Obligations.Sha1WritesStandardDigest : Prop :=
  (∀ rd, decode (word 0x30 rd 0 0 0) = .ok (.sha1 rd)) ∧
  ∀ s rd, s.flt = 0 → ∃ t, exec (.sha1 rd) s = .next t ∧
    HashWrote rd ⟨.sha1, (sha1Rounds s.message 80).slotWords⟩ s t

/-- R253, R254, R255: `SHA1.R rd, R` with `R <= 80` completes in every running state and writes the digest of the message
with `R` steps a block to `DG[rd]`, with tag `SHA1`, and nothing else but the engine registers; at `R = 80` it is
`SHA1 rd`; above 80 it faults with `E_ROUNDS` before anything is written. -/
def Obligations.Sha1RWritesRoundDigest : Prop :=
  (∀ rd r, decode (word 0x31 rd 0 0 r) = .ok (.sha1R rd r)) ∧
  ∀ s rd r, s.flt = 0 →
    (∀ h : r.toNat ≤ 80, ∃ t, exec (.sha1R rd r) s = .next t ∧
      HashWrote rd ⟨.sha1, (sha1Rounds s.message ⟨r.toNat, by omega⟩).slotWords⟩ s t) ∧
    (80 < r.toNat → exec (.sha1R rd r) s = .next (faultedWith 3 s.cmd s)) ∧
    exec (.sha1R rd 80) s = exec (.sha1 rd) s

/-- R76: the slot a hash command writes depends on the message bytes below `LEN`, `LEN` and `R` alone: two running states
that agree on these get equal slots, whatever their other slots, their engine registers, the bytes of `MSG` at and above
`LEN`, and the destination. -/
def Obligations.DigestDependsOnMessageAlone : Prop :=
  ∀ s s' rd rd' r t t', s.flt = 0 → s'.flt = 0 → s.len = s'.len →
    (∀ a, a < s.len.toNat → s.msg.byteAt a = s'.msg.byteAt a) →
    ((exec (.md5 rd) s = .next t ∧ exec (.md5 rd') s' = .next t') ∨
      (exec (.sha1 rd) s = .next t ∧ exec (.sha1 rd') s' = .next t') ∨
      (exec (.md5R rd r) s = .next t ∧ exec (.md5R rd' r) s' = .next t') ∨
      (r.toNat ≤ 80 ∧ exec (.sha1R rd r) s = .next t ∧ exec (.sha1R rd' r) s' = .next t')) →
    t.slot rd = t'.slot rd'

/-! ### The Digest unit -/

/-- R279: `DG.MOV` copies the whole slot, tag and all five words, and changes no other slot; an empty source faults with
`E_EMPTY`; `rd = rs1` changes no slot. -/
def Obligations.DgMovCopiesWholeSlot : Prop :=
  (∀ rd rs1, decode (word 0x40 rd rs1 0 0) = .ok (.dgMov rd rs1)) ∧
  ∀ s rd rs1, s.flt = 0 →
    ((s.slot rs1).tag ≠ .empty → ∃ t, exec (.dgMov rd rs1) s = .next t ∧
      t = { s with dg := t.dg, resp := some ⟨0, 0⟩ } ∧ t.slot rd = s.slot rs1 ∧
      (∀ d, d ≠ rd → t.slot d = s.slot d) ∧ (rd = rs1 → t.dg = s.dg)) ∧
    ((s.slot rs1).tag = .empty → exec (.dgMov rd rs1) s = .next (faultedWith 4 s.cmd s))

/-- R280: `DG.WORD` returns word `j` as a number, for `j` below 4 in an `MD5` slot and below 5 in a `SHA1` slot, and changes
nothing; an empty slot faults with `E_EMPTY` whatever `j` is, an index too large with `E_INDEX`. -/
def Obligations.DgWordAnswersWord : Prop :=
  (∀ d j, decode (word 0x41 0 d 0 j) = .ok (.dgWord d j)) ∧
  ∀ s d j, s.flt = 0 →
    (∀ h : j.toNat < 4, (s.slot d).tag = .md5 → exec (.dgWord d j) s = .next (answered (s.slot d).w[j.toNat] s)) ∧
    (∀ h : j.toNat < 5, (s.slot d).tag = .sha1 → exec (.dgWord d j) s = .next (answered (s.slot d).w[j.toNat] s)) ∧
    ((s.slot d).tag = .empty → exec (.dgWord d j) s = .next (faultedWith 4 s.cmd s)) ∧
    (((s.slot d).tag = .md5 ∧ 4 ≤ j.toNat) ∨ ((s.slot d).tag = .sha1 ∧ 5 ≤ j.toNat) →
      exec (.dgWord d j) s = .next (faultedWith 6 s.cmd s))

/-- R281, R272: `DG.BYTE` returns byte `n` of the serialization: with `j = n div 4` and `q = n mod 4`, `(w[j] >> 8q) mod
256` of an `MD5` slot and `(w[j] >> 8(3-q)) mod 256` of a `SHA1` slot; the faults are `E_EMPTY`, then `E_INDEX`. -/
def Obligations.DgByteAnswersSerializedByte : Prop :=
  (∀ d n, decode (word 0x42 0 d 0 n) = .ok (.dgByte d n)) ∧
  ∀ s d n, s.flt = 0 →
    (∀ h : n.toNat < 16, (s.slot d).tag = .md5 → exec (.dgByte d n) s =
      .next (answered (((s.slot d).w[n.toNat / 4] >>> (8 * (n.toNat % 4))) &&& 0xFF) s)) ∧
    (∀ h : n.toNat < 20, (s.slot d).tag = .sha1 → exec (.dgByte d n) s =
      .next (answered (((s.slot d).w[n.toNat / 4] >>> (8 * (3 - n.toNat % 4))) &&& 0xFF) s)) ∧
    ((s.slot d).tag = .empty → exec (.dgByte d n) s = .next (faultedWith 4 s.cmd s)) ∧
    (((s.slot d).tag = .md5 ∧ 16 ≤ n.toNat) ∨ ((s.slot d).tag = .sha1 ∧ 20 ≤ n.toNat) →
      exec (.dgByte d n) s = .next (faultedWith 6 s.cmd s))

/-- R282, R274: `DG.HEXC` returns character `n` of the hex form: the lowercase digit of the high nibble of byte `n div 2` of
the serialization when `n` is even, of its low nibble when `n` is odd, a code in `0x30..0x39` or `0x61..0x66`; the
faults are `E_EMPTY`, then `E_INDEX`. -/
def Obligations.DgHexcAnswersHexCharacter : Prop :=
  (∀ d n, decode (word 0x43 0 d 0 n) = .ok (.dgHexc d n)) ∧
  ∀ s d n, s.flt = 0 →
    (∀ alg b, (s.slot d).tag = alg.tag → (ser alg (s.slot d).w)[n.toNat / 2]? = some b → ∃ v : Word,
      exec (.dgHexc d n) s = .next (answered v s) ∧
      v.toNat = lowercaseDigit (if n.toNat % 2 = 0 then b.toNat / 16 else b.toNat % 16) ∧
      ((0x30 ≤ v.toNat ∧ v.toNat ≤ 0x39) ∨ (0x61 ≤ v.toNat ∧ v.toNat ≤ 0x66))) ∧
    (∀ alg : Alg, (s.slot d).tag = alg.tag → (ser alg (s.slot d).w).length = 4 * wordCount alg) ∧
    ((s.slot d).tag = .empty → exec (.dgHexc d n) s = .next (faultedWith 4 s.cmd s)) ∧
    (((s.slot d).tag = .md5 ∧ 32 ≤ n.toNat) ∨ ((s.slot d).tag = .sha1 ∧ 40 ≤ n.toNat) →
      exec (.dgHexc d n) s = .next (faultedWith 6 s.cmd s))

/-- R283: `DG.DIFF` returns the Hamming distance of two digests of one algorithm and changes nothing; the faults are
`E_EMPTY` when either slot is empty, then `E_ALG`; swapping the operands gives the same result; `rs1 = rs2` gives 0; the
value is at most 128 for `MD5` and 160 for `SHA1`. -/
def Obligations.DgDiffAnswersHammingDistance : Prop :=
  (∀ d d', decode (word 0x44 0 d d' 0) = .ok (.dgDiff d d')) ∧
  ∀ s d d', s.flt = 0 →
    (∀ alg : Alg, (s.slot d).tag = alg.tag → (s.slot d').tag = alg.tag → ∃ v : Word,
      exec (.dgDiff d d') s = .next (answered v s) ∧
      v.toNat = ∑ j : Fin 5, (if j.val < wordCount alg
        then popcount32 ((s.slot d).w[j] ^^^ (s.slot d').w[j]) else 0) ∧
      v.toNat ≤ 32 * wordCount alg ∧ (d = d' → v = 0)) ∧
    ((s.slot d).tag = .empty ∨ (s.slot d').tag = .empty →
      exec (.dgDiff d d') s = .next (faultedWith 4 s.cmd s)) ∧
    ((s.slot d).tag ≠ .empty → (s.slot d').tag ≠ .empty → (s.slot d).tag ≠ (s.slot d').tag →
      exec (.dgDiff d d') s = .next (faultedWith 5 s.cmd s)) ∧
    exec (.dgDiff d d') s = exec (.dgDiff d' d) s

/-- R277: the Hamming distance is 0 from a digest to itself, symmetric, zero exactly for equal digests, at most 32 times
the word count, and that maximum exactly when every word of one is the complement of the other's. -/
def Obligations.HammingDistanceProperties : Prop :=
  ∀ (alg : Alg) (x y : Vector Word 5),
    hammingDiff alg x x = 0 ∧ hammingDiff alg x y = hammingDiff alg y x ∧
    hammingDiff alg x y ≤ 32 * wordCount alg ∧
    (hammingDiff alg x y = 0 ↔ digestWords alg x = digestWords alg y) ∧
    (hammingDiff alg x y = 32 * wordCount alg ↔ digestWords alg x = (digestWords alg y).map (~~~·))

/-- R284: a slot changes only as a whole, by a successful hash command naming it as `rd` (which gives it the command's
tag), by `DG.MOV` naming it as `rd` (which gives it another slot's whole content), or by reset. -/
def Obligations.SlotsChangeOnlyAsAWhole : Prop :=
  ∀ s t d, step s = .next t → t.slot d ≠ s.slot d →
    (∃ rest, s.pending = .reset :: rest) ∨ (∃ cw rest, s.pending = .resetDuring cw :: rest) ∨
    (∃ cw rest i, s.pending = .command cw :: rest ∧ decode cw = .ok i ∧ s.flt = 0 ∧ t.flt = 0 ∧
      (((i = .md5 d ∨ ∃ r, i = .md5R d r) ∧ (t.slot d).tag = .md5 ∧ (t.slot d).w[4] = 0) ∨
       ((i = .sha1 d ∨ ∃ r, i = .sha1R d r) ∧ (t.slot d).tag = .sha1) ∨
       (∃ rs1, i = .dgMov d rs1 ∧ (s.slot rs1).tag ≠ .empty ∧ t.slot d = s.slot rs1)))

/-- R105: hash commands, `MSG.CLR` and `DG.MOV` are idempotent: doing one twice in a row leaves the same message, slots and
fault registers as doing it once (the engine registers are unspecified between commands), and the same response. -/
def Obligations.RepeatingACommandChangesNothing : Prop :=
  ∀ i s t u, (i = .msgClr ∨ (∃ rd, i = .md5 rd) ∨ (∃ rd r, i = .md5R rd r) ∨ (∃ rd, i = .sha1 rd) ∨
      (∃ rd r, i = .sha1R rd r ∧ r.toNat ≤ 80) ∨ (∃ rd rs1, i = .dgMov rd rs1 ∧ (s.slot rs1).tag ≠ .empty)) →
    s.flt = 0 → exec i s = .next t → exec i t = .next u →
    u.msg = t.msg ∧ u.len = t.len ∧ u.dg = t.dg ∧ u.flt = t.flt ∧ u.fcmd = t.fcmd ∧ u.resp = t.resp
end

