-- ==== Sys2Proof/Laws/Engine.lean ====
section
/-! SUPPORT. The micro-steps of the sequencer: how runs compose, and what the MIX phase does for each algorithm. -/

namespace Sys2Proof.Machine

theorem run_add (j : HashJob) (a b : Nat) (e : Engine) :
    Engine.run j (a + b) e = Engine.run j b (Engine.run j a e) := by
  induction a generalizing e with
  | zero => simp [Engine.run]
  | succ a ih => rw [show a + 1 + b = (a + b) + 1 by omega]; exact ih _

theorem run_succ (j : HashJob) (a : Nat) (e : Engine) :
    Engine.run j (a + 1) e = (Engine.run j a e).microStep j := run_add j a 1 e

/-- After `q` mixing steps from `e`: still in MIX, the step counter is `q`, and nothing has changed but the working
registers. -/
structure Mixing (e e' : Engine) (q : Nat) : Prop where
  phase : e'.phase = .mix
  k     : e'.k.toNat = q
  r     : e'.r = e.r
  m     : e'.m = e.m
  w     : e'.w = e.w
  h     : e'.h = e.h
  n     : e'.n = e.n
  nb    : e'.nb = e.nb

/-- `q` micro-steps in the MIX phase of MD5 are `q` mixing steps, for `q <= R`. -/
theorem mix_md5 (j : HashJob) (hj : j.alg = .md5) (e : Engine) (hp : e.phase = .mix) (hk : e.k = 0) (q : Nat)
    (hq : q ≤ e.r.toNat) :
    Mixing e (Engine.run j q e) q ∧ (Engine.run j q e).md5Work = md5Steps e.m e.md5Work q := by
  induction q with
  | zero => exact ⟨⟨hp, by simp [Engine.run, hk], rfl, rfl, rfl, rfl, rfl, rfl⟩, rfl⟩
  | succ q ih =>
    obtain ⟨⟨h1, h2, h3, h4, h5, h6, h7, h8⟩, h9⟩ := ih (by omega)
    rw [run_succ]
    generalize Engine.run j q e = e' at h1 h2 h3 h4 h5 h6 h7 h8 h9 ⊢
    have hlt : e'.k < e'.r := by rw [BitVec.lt_def, h2, h3]; omega
    have hr := e.r.isLt
    have hs : e'.microStep j = { e'.setMd5Work (md5Step e'.k.toNat e'.md5Work e'.m) with k := e'.k + 1 } := by
      simp only [Engine.microStep, h1, Engine.doMix, if_pos hlt, hj]
    rw [hs]
    refine ⟨⟨h1, ?_, h3, h4, h5, h6, h7, h8⟩, ?_⟩
    · change (e'.k + 1).toNat = _
      rw [BitVec.toNat_add, h2]; simp; omega
    · change md5Step e'.k.toNat e'.md5Work e'.m = md5Step q (md5Steps e.m e.md5Work q) e.m
      rw [h2, h9, h4]

/-- `q` micro-steps in the MIX phase of SHA-1 are `q` mixing steps, for `q <= R <= 80`. -/
theorem mix_sha1 (j : HashJob) (hj : j.alg = .sha1) (e : Engine) (hp : e.phase = .mix) (hk : e.k = 0) (q : Nat)
    (hq : q ≤ e.r.toNat) (hr80 : e.r.toNat ≤ 80) :
    Mixing e (Engine.run j q e) q ∧
      (Engine.run j q e).sha1Work = sha1Steps e.w e.sha1Work q (by omega) := by
  induction q with
  | zero => exact ⟨⟨hp, by simp [Engine.run, hk], rfl, rfl, rfl, rfl, rfl, rfl⟩, rfl⟩
  | succ q ih =>
    obtain ⟨⟨h1, h2, h3, h4, h5, h6, h7, h8⟩, h9⟩ := ih (by omega)
    rw [run_succ]
    generalize Engine.run j q e = e' at h1 h2 h3 h4 h5 h6 h7 h8 h9 ⊢
    have hlt : e'.k < e'.r := by rw [BitVec.lt_def, h2, h3]; omega
    have hr := e.r.isLt
    have hs : e'.microStep j =
        { e'.setSha1Work (sha1Step ⟨e'.k.toNat, by omega⟩ e'.sha1Work e'.w) with k := e'.k + 1 } := by
      simp only [Engine.microStep, h1, Engine.doMix, if_pos hlt, hj]
      rw [dif_pos (show e'.k.toNat < 80 by omega)]
    rw [hs]
    refine ⟨⟨h1, ?_, h3, h4, h5, h6, h7, h8⟩, ?_⟩
    · change (e'.k + 1).toNat = _
      rw [BitVec.toNat_add, h2]; simp; omega
    · change sha1Step ⟨e'.k.toNat, _⟩ e'.sha1Work e'.w = sha1Step ⟨q, _⟩ (sha1Steps e.w e.sha1Work q _) e.w
      simp only [h2, h9, h5]

end Sys2Proof.Machine
end

