-- ==== Sys2Proof/Laws/State.lean ====
section
/-! SUPPORT. One lemma per field per update of the state, each true by `rfl`, so that no proof unfolds a record update. -/

namespace Sys2Proof.Machine

/-! ### `respondOk` -/

@[simp] theorem respondOk_msg (v : Word) (s : State) : (respondOk v s).msg = s.msg := rfl
@[simp] theorem respondOk_len (v : Word) (s : State) : (respondOk v s).len = s.len := rfl
@[simp] theorem respondOk_cap (v : Word) (s : State) : (respondOk v s).cap = s.cap := rfl
@[simp] theorem respondOk_dg (v : Word) (s : State) : (respondOk v s).dg = s.dg := rfl
@[simp] theorem respondOk_flt (v : Word) (s : State) : (respondOk v s).flt = s.flt := rfl
@[simp] theorem respondOk_fcmd (v : Word) (s : State) : (respondOk v s).fcmd = s.fcmd := rfl
@[simp] theorem respondOk_eng (v : Word) (s : State) : (respondOk v s).eng = s.eng := rfl
@[simp] theorem respondOk_pending (v : Word) (s : State) : (respondOk v s).pending = s.pending := rfl
@[simp] theorem respondOk_cmd (v : Word) (s : State) : (respondOk v s).cmd = s.cmd := rfl
@[simp] theorem respondOk_resp (v : Word) (s : State) : (respondOk v s).resp = some ⟨statusOk, v⟩ := rfl
@[simp] theorem respondOk_free (v : Word) (s : State) : (respondOk v s).free = s.free := rfl

/-! ### `raiseFault` -/

@[simp] theorem raiseFault_msg (f : FaultCode) (s : State) : (raiseFault f s).msg = s.msg := rfl
@[simp] theorem raiseFault_len (f : FaultCode) (s : State) : (raiseFault f s).len = s.len := rfl
@[simp] theorem raiseFault_cap (f : FaultCode) (s : State) : (raiseFault f s).cap = s.cap := rfl
@[simp] theorem raiseFault_dg (f : FaultCode) (s : State) : (raiseFault f s).dg = s.dg := rfl
@[simp] theorem raiseFault_flt (f : FaultCode) (s : State) : (raiseFault f s).flt = f.code := rfl
@[simp] theorem raiseFault_fcmd (f : FaultCode) (s : State) : (raiseFault f s).fcmd = s.cmd := rfl
@[simp] theorem raiseFault_eng (f : FaultCode) (s : State) : (raiseFault f s).eng = s.eng := rfl
@[simp] theorem raiseFault_pending (f : FaultCode) (s : State) : (raiseFault f s).pending = s.pending := rfl
@[simp] theorem raiseFault_cmd (f : FaultCode) (s : State) : (raiseFault f s).cmd = s.cmd := rfl
@[simp] theorem raiseFault_resp (f : FaultCode) (s : State) : (raiseFault f s).resp = some ⟨f.code, 0⟩ := rfl
@[simp] theorem raiseFault_free (f : FaultCode) (s : State) : (raiseFault f s).free = s.free := rfl

/-! ### `refuseHalted` -/

@[simp] theorem refuseHalted_msg (s : State) : (refuseHalted s).msg = s.msg := rfl
@[simp] theorem refuseHalted_len (s : State) : (refuseHalted s).len = s.len := rfl
@[simp] theorem refuseHalted_cap (s : State) : (refuseHalted s).cap = s.cap := rfl
@[simp] theorem refuseHalted_dg (s : State) : (refuseHalted s).dg = s.dg := rfl
@[simp] theorem refuseHalted_flt (s : State) : (refuseHalted s).flt = s.flt := rfl
@[simp] theorem refuseHalted_fcmd (s : State) : (refuseHalted s).fcmd = s.fcmd := rfl
@[simp] theorem refuseHalted_eng (s : State) : (refuseHalted s).eng = s.eng := rfl
@[simp] theorem refuseHalted_pending (s : State) : (refuseHalted s).pending = s.pending := rfl
@[simp] theorem refuseHalted_cmd (s : State) : (refuseHalted s).cmd = s.cmd := rfl
@[simp] theorem refuseHalted_resp (s : State) : (refuseHalted s).resp = some ⟨statusHalted, 0⟩ := rfl
@[simp] theorem refuseHalted_free (s : State) : (refuseHalted s).free = s.free := rfl

/-! ### `setSlot` -/

@[simp] theorem setSlot_msg (s : State) (d : SlotNo) (x : Slot) : (s.setSlot d x).msg = s.msg := rfl
@[simp] theorem setSlot_len (s : State) (d : SlotNo) (x : Slot) : (s.setSlot d x).len = s.len := rfl
@[simp] theorem setSlot_cap (s : State) (d : SlotNo) (x : Slot) : (s.setSlot d x).cap = s.cap := rfl
@[simp] theorem setSlot_dg (s : State) (d : SlotNo) (x : Slot) : (s.setSlot d x).dg = s.dg.set d x := rfl
@[simp] theorem setSlot_flt (s : State) (d : SlotNo) (x : Slot) : (s.setSlot d x).flt = s.flt := rfl
@[simp] theorem setSlot_fcmd (s : State) (d : SlotNo) (x : Slot) : (s.setSlot d x).fcmd = s.fcmd := rfl
@[simp] theorem setSlot_eng (s : State) (d : SlotNo) (x : Slot) : (s.setSlot d x).eng = s.eng := rfl
@[simp] theorem setSlot_pending (s : State) (d : SlotNo) (x : Slot) : (s.setSlot d x).pending = s.pending := rfl
@[simp] theorem setSlot_cmd (s : State) (d : SlotNo) (x : Slot) : (s.setSlot d x).cmd = s.cmd := rfl
@[simp] theorem setSlot_resp (s : State) (d : SlotNo) (x : Slot) : (s.setSlot d x).resp = s.resp := rfl
@[simp] theorem setSlot_free (s : State) (d : SlotNo) (x : Slot) : (s.setSlot d x).free = s.free := rfl

/-! ### `takeInput` -/

@[simp] theorem takeInput_msg (s : State) (r : List HostInput) : (s.takeInput r).msg = s.msg := rfl
@[simp] theorem takeInput_len (s : State) (r : List HostInput) : (s.takeInput r).len = s.len := rfl
@[simp] theorem takeInput_cap (s : State) (r : List HostInput) : (s.takeInput r).cap = s.cap := rfl
@[simp] theorem takeInput_dg (s : State) (r : List HostInput) : (s.takeInput r).dg = s.dg := rfl
@[simp] theorem takeInput_flt (s : State) (r : List HostInput) : (s.takeInput r).flt = s.flt := rfl
@[simp] theorem takeInput_fcmd (s : State) (r : List HostInput) : (s.takeInput r).fcmd = s.fcmd := rfl
@[simp] theorem takeInput_eng (s : State) (r : List HostInput) : (s.takeInput r).eng = s.eng := rfl
@[simp] theorem takeInput_pending (s : State) (r : List HostInput) : (s.takeInput r).pending = r := rfl
@[simp] theorem takeInput_cmd (s : State) (r : List HostInput) : (s.takeInput r).cmd = s.cmd := rfl
@[simp] theorem takeInput_resp (s : State) (r : List HostInput) : (s.takeInput r).resp = s.resp := rfl
@[simp] theorem takeInput_free (s : State) (r : List HostInput) : (s.takeInput r).free = s.free := rfl

/-! ### `present` -/

@[simp] theorem present_msg (s : State) (cw : CmdWord) : (s.present cw).msg = s.msg := rfl
@[simp] theorem present_len (s : State) (cw : CmdWord) : (s.present cw).len = s.len := rfl
@[simp] theorem present_cap (s : State) (cw : CmdWord) : (s.present cw).cap = s.cap := rfl
@[simp] theorem present_dg (s : State) (cw : CmdWord) : (s.present cw).dg = s.dg := rfl
@[simp] theorem present_flt (s : State) (cw : CmdWord) : (s.present cw).flt = s.flt := rfl
@[simp] theorem present_fcmd (s : State) (cw : CmdWord) : (s.present cw).fcmd = s.fcmd := rfl
@[simp] theorem present_eng (s : State) (cw : CmdWord) : (s.present cw).eng = s.eng := rfl
@[simp] theorem present_pending (s : State) (cw : CmdWord) : (s.present cw).pending = s.pending := rfl
@[simp] theorem present_cmd (s : State) (cw : CmdWord) : (s.present cw).cmd = cw := rfl
@[simp] theorem present_resp (s : State) (cw : CmdWord) : (s.present cw).resp = s.resp := rfl
@[simp] theorem present_free (s : State) (cw : CmdWord) : (s.present cw).free = s.free := rfl

/-! ### `clearMessage` -/

@[simp] theorem clearMessage_msg (s : State) : (clearMessage s).msg = s.msg := rfl
@[simp] theorem clearMessage_len (s : State) : (clearMessage s).len = 0 := rfl
@[simp] theorem clearMessage_cap (s : State) : (clearMessage s).cap = s.cap := rfl
@[simp] theorem clearMessage_dg (s : State) : (clearMessage s).dg = s.dg := rfl
@[simp] theorem clearMessage_flt (s : State) : (clearMessage s).flt = s.flt := rfl
@[simp] theorem clearMessage_fcmd (s : State) : (clearMessage s).fcmd = s.fcmd := rfl
@[simp] theorem clearMessage_eng (s : State) : (clearMessage s).eng = s.eng := rfl
@[simp] theorem clearMessage_pending (s : State) : (clearMessage s).pending = s.pending := rfl
@[simp] theorem clearMessage_cmd (s : State) : (clearMessage s).cmd = s.cmd := rfl
@[simp] theorem clearMessage_resp (s : State) : (clearMessage s).resp = s.resp := rfl
@[simp] theorem clearMessage_free (s : State) : (clearMessage s).free = s.free := rfl

/-! ### `appendByte` -/

@[simp] theorem appendByte_msg (b : Byte) (s : State) : (appendByte b s).msg = s.msg.write s.len.toNat b := rfl
@[simp] theorem appendByte_len (b : Byte) (s : State) : (appendByte b s).len = s.len + 1 := rfl
@[simp] theorem appendByte_cap (b : Byte) (s : State) : (appendByte b s).cap = s.cap := rfl
@[simp] theorem appendByte_dg (b : Byte) (s : State) : (appendByte b s).dg = s.dg := rfl
@[simp] theorem appendByte_flt (b : Byte) (s : State) : (appendByte b s).flt = s.flt := rfl
@[simp] theorem appendByte_fcmd (b : Byte) (s : State) : (appendByte b s).fcmd = s.fcmd := rfl
@[simp] theorem appendByte_eng (b : Byte) (s : State) : (appendByte b s).eng = s.eng := rfl
@[simp] theorem appendByte_pending (b : Byte) (s : State) : (appendByte b s).pending = s.pending := rfl
@[simp] theorem appendByte_cmd (b : Byte) (s : State) : (appendByte b s).cmd = s.cmd := rfl
@[simp] theorem appendByte_resp (b : Byte) (s : State) : (appendByte b s).resp = s.resp := rfl
@[simp] theorem appendByte_free (b : Byte) (s : State) : (appendByte b s).free = s.free := rfl

/-! ### `afterHash` -/

@[simp] theorem afterHash_msg (alg : Alg) (r : Word) (rd : SlotNo) (s : State) : (afterHash alg r rd s).msg = s.msg := rfl
@[simp] theorem afterHash_len (alg : Alg) (r : Word) (rd : SlotNo) (s : State) : (afterHash alg r rd s).len = s.len := rfl
@[simp] theorem afterHash_cap (alg : Alg) (r : Word) (rd : SlotNo) (s : State) : (afterHash alg r rd s).cap = s.cap := rfl
@[simp] theorem afterHash_dg (alg : Alg) (r : Word) (rd : SlotNo) (s : State) : (afterHash alg r rd s).dg = s.dg.set rd ((s.hashJob alg r).slotOf ((s.hashJob alg r).result s.eng)) := rfl
@[simp] theorem afterHash_flt (alg : Alg) (r : Word) (rd : SlotNo) (s : State) : (afterHash alg r rd s).flt = s.flt := rfl
@[simp] theorem afterHash_fcmd (alg : Alg) (r : Word) (rd : SlotNo) (s : State) : (afterHash alg r rd s).fcmd = s.fcmd := rfl
@[simp] theorem afterHash_eng (alg : Alg) (r : Word) (rd : SlotNo) (s : State) : (afterHash alg r rd s).eng = Engine.discarded s.free := rfl
@[simp] theorem afterHash_pending (alg : Alg) (r : Word) (rd : SlotNo) (s : State) : (afterHash alg r rd s).pending = s.pending := rfl
@[simp] theorem afterHash_cmd (alg : Alg) (r : Word) (rd : SlotNo) (s : State) : (afterHash alg r rd s).cmd = s.cmd := rfl
@[simp] theorem afterHash_resp (alg : Alg) (r : Word) (rd : SlotNo) (s : State) : (afterHash alg r rd s).resp = s.resp := rfl
@[simp] theorem afterHash_free (alg : Alg) (r : Word) (rd : SlotNo) (s : State) : (afterHash alg r rd s).free = s.free + freePerHash := rfl

/-! ### `hostReset` -/

@[simp] theorem hostReset_msg (s : State) : (hostReset s).msg = [] := rfl
@[simp] theorem hostReset_len (s : State) : (hostReset s).len = 0 := rfl
@[simp] theorem hostReset_cap (s : State) : (hostReset s).cap = s.cap := rfl
@[simp] theorem hostReset_dg (s : State) : (hostReset s).dg = Vector.replicate 4 Slot.reset := rfl
@[simp] theorem hostReset_flt (s : State) : (hostReset s).flt = 0 := rfl
@[simp] theorem hostReset_fcmd (s : State) : (hostReset s).fcmd = 0 := rfl
@[simp] theorem hostReset_eng (s : State) : (hostReset s).eng = Engine.reset := rfl
@[simp] theorem hostReset_pending (s : State) : (hostReset s).pending = s.pending := rfl
@[simp] theorem hostReset_cmd (s : State) : (hostReset s).cmd = 0 := rfl
@[simp] theorem hostReset_resp (s : State) : (hostReset s).resp = none := rfl
@[simp] theorem hostReset_free (s : State) : (hostReset s).free = s.free := rfl

/-! ### `slot`, `halted` and `message` after the updates -/

@[simp] theorem respondOk_slot (v : Word) (s : State) (d : SlotNo) : (respondOk v s).slot d = s.slot d := rfl
@[simp] theorem raiseFault_slot (f : FaultCode) (s : State) (d : SlotNo) : (raiseFault f s).slot d = s.slot d := rfl
@[simp] theorem refuseHalted_slot (s : State) (d : SlotNo) : (refuseHalted s).slot d = s.slot d := rfl
@[simp] theorem takeInput_slot (s : State) (r : List HostInput) (d : SlotNo) : (s.takeInput r).slot d = s.slot d := rfl
@[simp] theorem present_slot (s : State) (cw : CmdWord) (d : SlotNo) : (s.present cw).slot d = s.slot d := rfl

@[simp] theorem clearMessage_slot (s : State) (d : SlotNo) : (clearMessage s).slot d = s.slot d := rfl
@[simp] theorem appendByte_slot (b : Byte) (s : State) (d : SlotNo) : (appendByte b s).slot d = s.slot d := rfl

@[simp] theorem setSlot_slot_self (s : State) (d : SlotNo) (x : Slot) : (s.setSlot d x).slot d = x := by
  simp [State.slot, State.setSlot]

theorem setSlot_slot_ne (s : State) (d d' : SlotNo) (x : Slot) (h : d' ≠ d) :
    (s.setSlot d x).slot d' = s.slot d' := by
  have h' : d.val ≠ d'.val := fun e => h (Fin.ext e.symm)
  simp [State.slot, State.setSlot, Vector.getElem_set_ne, h']

@[simp] theorem afterHash_slot_self (alg : Alg) (r : Word) (rd : SlotNo) (s : State) :
    (afterHash alg r rd s).slot rd = (s.hashJob alg r).slotOf ((s.hashJob alg r).result s.eng) := by
  simp [State.slot]

theorem afterHash_slot_ne (alg : Alg) (r : Word) (rd d : SlotNo) (s : State) (h : d ≠ rd) :
    (afterHash alg r rd s).slot d = s.slot d :=
  setSlot_slot_ne s rd d _ h

@[simp] theorem hostReset_slot (s : State) (d : SlotNo) : (hostReset s).slot d = Slot.reset := by
  simp [State.slot]

@[simp] theorem respondOk_halted (v : Word) (s : State) : (respondOk v s).halted = s.halted := rfl
@[simp] theorem refuseHalted_halted (s : State) : (refuseHalted s).halted = s.halted := rfl
@[simp] theorem setSlot_halted (s : State) (d : SlotNo) (x : Slot) : (s.setSlot d x).halted = s.halted := rfl
@[simp] theorem takeInput_halted (s : State) (r : List HostInput) : (s.takeInput r).halted = s.halted := rfl
@[simp] theorem present_halted (s : State) (cw : CmdWord) : (s.present cw).halted = s.halted := rfl
@[simp] theorem hostReset_halted (s : State) : (hostReset s).halted = false := rfl

@[simp] theorem raiseFault_halted (f : FaultCode) (s : State) : (raiseFault f s).halted = true := by
  cases f <;> rfl

theorem halted_eq_false_iff (s : State) : s.halted = false ↔ s.flt = 0 := by
  simp [State.halted]

theorem halted_eq_true_iff (s : State) : s.halted = true ↔ s.flt ≠ 0 := by
  simp [State.halted]

@[simp] theorem respondOk_message (v : Word) (s : State) : (respondOk v s).message = s.message := rfl
@[simp] theorem raiseFault_message (f : FaultCode) (s : State) : (raiseFault f s).message = s.message := rfl
@[simp] theorem refuseHalted_message (s : State) : (refuseHalted s).message = s.message := rfl
@[simp] theorem takeInput_message (s : State) (r : List HostInput) : (s.takeInput r).message = s.message := rfl
@[simp] theorem present_message (s : State) (cw : CmdWord) : (s.present cw).message = s.message := rfl

end Sys2Proof.Machine
end

