-- ==== Sys2Proof/Laws/Ops.lean ====
section
/-! SUPPORT. What each shared operation can do, once: its result in each case, and what follows when it answers a next
state. -/

namespace Sys2Proof.Machine

variable {s t : State} {body : Host.Outcome State Fault Refusal}

theorem done_next {v : Word} (h : done v s = .next t) : t = respondOk v s := by
  cases h; rfl

theorem fault_next {f : FaultCode} (h : fault f s = .next t) : t = raiseFault f s := by
  cases h; rfl

theorem whenRunning_running (h : s.halted = false) : whenRunning s body = body := by
  simp [whenRunning, h]

theorem whenRunning_halted (h : s.halted = true) : whenRunning s body = .next (refuseHalted s) := by
  simp [whenRunning, h]

/-- A command other than a legal `CSR.RD` is refused while halted, and otherwise does what its rule says. -/
theorem whenRunning_next (h : whenRunning s body = .next t) :
    (s.halted = true ∧ t = refuseHalted s) ∨ (s.halted = false ∧ body = .next t) := by
  cases hs : s.halted
  · rw [whenRunning_running hs] at h; exact .inr ⟨rfl, h⟩
  · rw [whenRunning_halted hs] at h; cases h; exact .inl ⟨rfl, rfl⟩

theorem illegalWord_next (h : illegalWord s = .next t) :
    (s.halted = true ∧ t = refuseHalted s) ∨ (s.halted = false ∧ t = raiseFault .illegal s) :=
  (whenRunning_next h).imp id fun ⟨hs, hb⟩ => ⟨hs, fault_next hb⟩

theorem withDigest_empty {d : SlotNo} {k : Alg → Host.Outcome State Fault Refusal} (h : (s.slot d).tag = .empty) :
    withDigest s d k = fault .empty s := by
  simp [withDigest, h]

theorem withDigest_tag {d : SlotNo} {alg : Alg} {k : Alg → Host.Outcome State Fault Refusal}
    (h : (s.slot d).tag = alg.tag) : withDigest s d k = k alg := by
  cases alg <;> simp [withDigest, h, Alg.tag]

/-- A source slot is empty, or it holds a digest of one algorithm. -/
theorem tag_cases (x : Slot) : x.tag = .empty ∨ ∃ alg : Alg, x.tag = alg.tag := by
  cases h : x.tag
  · exact .inl rfl
  · exact .inr ⟨.md5, rfl⟩
  · exact .inr ⟨.sha1, rfl⟩

theorem withDigest_next {d : SlotNo} {k : Alg → Host.Outcome State Fault Refusal} (h : withDigest s d k = .next t) :
    ((s.slot d).tag = .empty ∧ t = raiseFault .empty s) ∨
      ∃ alg : Alg, (s.slot d).tag = alg.tag ∧ k alg = .next t := by
  obtain he | ⟨alg, ha⟩ := tag_cases (s.slot d)
  · rw [withDigest_empty he] at h; exact .inl ⟨he, fault_next h⟩
  · rw [withDigest_tag ha] at h; exact .inr ⟨alg, ha, h⟩

theorem withIndex_inside {i bound : Nat} (h : i < bound) : withIndex s i bound body = body := by
  simp [withIndex, Nat.not_le.mpr h]

theorem withIndex_outside {i bound : Nat} (h : bound ≤ i) : withIndex s i bound body = fault .index s := by
  simp [withIndex, h]

theorem withIndex_next {i bound : Nat} (h : withIndex s i bound body = .next t) :
    (bound ≤ i ∧ t = raiseFault .index s) ∨ (i < bound ∧ body = .next t) := by
  obtain hi | hi := Nat.lt_or_ge i bound
  · rw [withIndex_inside hi] at h; exact .inr ⟨hi, h⟩
  · rw [withIndex_outside hi] at h; exact .inl ⟨hi, fault_next h⟩

end Sys2Proof.Machine
end

