-- ==== Sys2Proof/Laws/Exec.lean ====
section
/-! SUPPORT. What a command, and a step, can do at all: one case analysis for all commands, from which every invariant and
every frame follows without unfolding a meaning again. -/

namespace Sys2Proof.Machine

/-- `i` is a hash command of the algorithm `alg` with round count `r` and destination `rd`. -/
inductive Hashes : Instr → Alg → Word → SlotNo → Prop where
  | md5 (rd : SlotNo) : Hashes (.md5 rd) .md5 64 rd
  | md5R (rd : SlotNo) (r : Word) : Hashes (.md5R rd r) .md5 r rd
  | sha1 (rd : SlotNo) : Hashes (.sha1 rd) .sha1 80 rd
  | sha1R (rd : SlotNo) (r : Word) (h : r.toNat ≤ 80) : Hashes (.sha1R rd r) .sha1 r rd

/-- The faults of a command and what raises each (R311, R320), for a command that CORE executes. -/
inductive Raises : Instr → State → FaultCode → Prop where
  | undefinedCsr {s : State} (csr : Word) (h : csrValue s csr = none) : Raises (.csrRd csr) s .illegal
  | pushIllegal {s : State} (imm : Word) (h : pushOperandLegal imm = false) : Raises (.msgPush imm) s .illegal
  | msgFull {s : State} (imm : Word) (h : s.cap ≤ s.len) : Raises (.msgPush imm) s .msgFull
  | rounds {s : State} (rd : SlotNo) (r : Word) (h : 80 < r.toNat) : Raises (.sha1R rd r) s .rounds
  | padIndexMd5 {s : State} (p : Word) (h : plen s.len.toNat ≤ p.toNat) : Raises (.padByteMd5 p) s .index
  | padIndexSha1 {s : State} (p : Word) (h : plen s.len.toNat ≤ p.toNat) : Raises (.padByteSha1 p) s .index
  | movEmpty {s : State} (rd d : SlotNo) (h : (s.slot d).tag = .empty) : Raises (.dgMov rd d) s .empty
  | wordEmpty {s : State} (d : SlotNo) (j : Word) (h : (s.slot d).tag = .empty) : Raises (.dgWord d j) s .empty
  | byteEmpty {s : State} (d : SlotNo) (n : Word) (h : (s.slot d).tag = .empty) : Raises (.dgByte d n) s .empty
  | hexcEmpty {s : State} (d : SlotNo) (n : Word) (h : (s.slot d).tag = .empty) : Raises (.dgHexc d n) s .empty
  | diffEmpty1 {s : State} (d d' : SlotNo) (h : (s.slot d).tag = .empty) : Raises (.dgDiff d d') s .empty
  | diffEmpty2 {s : State} (d d' : SlotNo) (h : (s.slot d').tag = .empty) : Raises (.dgDiff d d') s .empty
  | diffAlg {s : State} (d d' : SlotNo) (a a' : Alg) (h : (s.slot d).tag = a.tag) (h' : (s.slot d').tag = a'.tag)
      (hne : a ≠ a') : Raises (.dgDiff d d') s .alg
  | wordIndex {s : State} (d : SlotNo) (j : Word) (a : Alg) (h : (s.slot d).tag = a.tag)
      (hj : wordCount a ≤ j.toNat) : Raises (.dgWord d j) s .index
  | byteIndex {s : State} (d : SlotNo) (n : Word) (a : Alg) (h : (s.slot d).tag = a.tag)
      (hn : 4 * wordCount a ≤ n.toNat) : Raises (.dgByte d n) s .index
  | hexcIndex {s : State} (d : SlotNo) (n : Word) (a : Alg) (h : (s.slot d).tag = a.tag)
      (hn : 8 * wordCount a ≤ n.toNat) : Raises (.dgHexc d n) s .index

/-- Everything a command can leave behind. -/
inductive Effect (i : Instr) (s : State) : State → Prop where
  /-- Refused while halted. -/
  | refused (h : s.halted = true) : Effect i s (refuseHalted s)
  /-- Fault entry. -/
  | faulted (h : s.halted = false) (f : FaultCode) (hf : Raises i s f) : Effect i s (raiseFault f s)
  /-- A value is returned and nothing changes. -/
  | answered (v : Word) (h : s.halted = false ∨ ∃ csr, i = .csrRd csr ∧ csrValue s csr = some v) :
      Effect i s (respondOk v s)
  /-- `MSG.CLR`. -/
  | cleared (h : s.halted = false) (hi : i = .msgClr) : Effect i s (respondOk 0 (clearMessage s))
  /-- `MSG.PUSH`. -/
  | appended (h : s.halted = false) (imm : Word) (hi : i = .msgPush imm) (hl : s.len < s.cap) :
      Effect i s (respondOk 0 (appendByte (immByte imm) s))
  /-- A hash command. -/
  | hashed (h : s.halted = false) (alg : Alg) (r : Word) (rd : SlotNo) (hi : Hashes i alg r rd) :
      Effect i s (respondOk 0 (afterHash alg r rd s))
  /-- `DG.MOV`. -/
  | moved (h : s.halted = false) (rd rs1 : SlotNo) (hi : i = .dgMov rd rs1) (ht : (s.slot rs1).tag ≠ .empty) :
      Effect i s (respondOk 0 (s.setSlot rd (s.slot rs1)))

variable {i : Instr} {s t : State}

theorem withIndex_done_effect {n bound : Nat} {v : Word} (hs : s.halted = false)
    (h : withIndex s n bound (done v s) = .next t) (hf : bound ≤ n → Raises i s .index) : Effect i s t := by
  obtain ⟨hn, rfl⟩ | ⟨_, ha⟩ := withIndex_next h
  · exact .faulted hs _ (hf hn)
  · cases ha; exact .answered _ (.inl hs)

/-- Whatever a command answers as a next state is one of the effects above. -/
theorem exec_effect (h : exec i s = .next t) : Effect i s t := by
  cases i with
  | csrRd csr =>
    simp only [exec, execCsrRd] at h
    split at h
    · rename_i v hv; cases h; exact .answered _ (.inr ⟨csr, rfl, hv⟩)
    · rename_i hv
      obtain ⟨hs, rfl⟩ | ⟨hs, rfl⟩ := illegalWord_next h
      · exact .refused hs
      · exact .faulted hs _ (.undefinedCsr csr hv)
  | msgClr =>
    obtain ⟨hs, rfl⟩ | ⟨hs, hb⟩ := whenRunning_next h
    · exact .refused hs
    · cases hb; exact .cleared hs rfl
  | msgPush imm =>
    obtain ⟨hs, rfl⟩ | ⟨hs, hb⟩ := whenRunning_next h
    · exact .refused hs
    · split at hb
      · split at hb
        · rename_i hl; cases hb; exact .faulted hs _ (.msgFull imm hl)
        · rename_i hl; cases hb; exact .appended hs imm rfl (BitVec.not_le.mp hl)
      · rename_i hi; cases hb; exact .faulted hs _ (.pushIllegal imm (by simpa using hi))
  | padNblk =>
    obtain ⟨hs, rfl⟩ | ⟨hs, hb⟩ := whenRunning_next h
    · exact .refused hs
    · cases hb; exact .answered _ (.inl hs)
  | padByteMd5 p =>
    obtain ⟨hs, rfl⟩ | ⟨hs, hb⟩ := whenRunning_next h
    · exact .refused hs
    · exact withIndex_done_effect hs hb fun hp => .padIndexMd5 p hp
  | padByteSha1 p =>
    obtain ⟨hs, rfl⟩ | ⟨hs, hb⟩ := whenRunning_next h
    · exact .refused hs
    · exact withIndex_done_effect hs hb fun hp => .padIndexSha1 p hp
  | md5 rd =>
    obtain ⟨hs, rfl⟩ | ⟨hs, hb⟩ := whenRunning_next h
    · exact .refused hs
    · cases hb; exact .hashed hs _ _ _ (.md5 rd)
  | md5R rd r =>
    obtain ⟨hs, rfl⟩ | ⟨hs, hb⟩ := whenRunning_next h
    · exact .refused hs
    · cases hb; exact .hashed hs _ _ _ (.md5R rd r)
  | sha1 rd =>
    obtain ⟨hs, rfl⟩ | ⟨hs, hb⟩ := whenRunning_next h
    · exact .refused hs
    · cases hb; exact .hashed hs _ _ _ (.sha1 rd)
  | sha1R rd r =>
    obtain ⟨hs, rfl⟩ | ⟨hs, hb⟩ := whenRunning_next h
    · exact .refused hs
    · split at hb
      · rename_i hr; cases hb; exact .faulted hs _ (.rounds rd r hr)
      · rename_i hr; cases hb; exact .hashed hs _ _ _ (.sha1R rd r (Nat.not_lt.mp hr))
  | dgMov rd rs1 =>
    obtain ⟨hs, rfl⟩ | ⟨hs, hb⟩ := whenRunning_next h
    · exact .refused hs
    · obtain ⟨he, rfl⟩ | ⟨alg, ht, ha⟩ := withDigest_next hb
      · exact .faulted hs _ (.movEmpty rd rs1 he)
      · cases ha; exact .moved hs rd rs1 rfl (by rw [ht]; cases alg <;> simp [Alg.tag])
  | dgWord rs1 j =>
    obtain ⟨hs, rfl⟩ | ⟨hs, hb⟩ := whenRunning_next h
    · exact .refused hs
    · obtain ⟨he, rfl⟩ | ⟨alg, ht, ha⟩ := withDigest_next hb
      · exact .faulted hs _ (.wordEmpty rs1 j he)
      · exact withIndex_done_effect hs ha fun hj => .wordIndex rs1 j alg ht hj
  | dgByte rs1 n =>
    obtain ⟨hs, rfl⟩ | ⟨hs, hb⟩ := whenRunning_next h
    · exact .refused hs
    · obtain ⟨he, rfl⟩ | ⟨alg, ht, ha⟩ := withDigest_next hb
      · exact .faulted hs _ (.byteEmpty rs1 n he)
      · exact withIndex_done_effect hs ha fun hn => .byteIndex rs1 n alg ht hn
  | dgHexc rs1 n =>
    obtain ⟨hs, rfl⟩ | ⟨hs, hb⟩ := whenRunning_next h
    · exact .refused hs
    · obtain ⟨he, rfl⟩ | ⟨alg, ht, ha⟩ := withDigest_next hb
      · exact .faulted hs _ (.hexcEmpty rs1 n he)
      · exact withIndex_done_effect hs ha fun hn => .hexcIndex rs1 n alg ht hn
  | dgDiff rs1 rs2 =>
    obtain ⟨hs, rfl⟩ | ⟨hs, hb⟩ := whenRunning_next h
    · exact .refused hs
    · obtain ⟨he, rfl⟩ | ⟨a, ht, ha⟩ := withDigest_next hb
      · exact .faulted hs _ (.diffEmpty1 rs1 rs2 he)
      · obtain ⟨he, rfl⟩ | ⟨a', ht', hb⟩ := withDigest_next ha
        · exact .faulted hs _ (.diffEmpty2 rs1 rs2 he)
        · split at hb
          · cases hb; exact .answered _ (.inl hs)
          · rename_i hne; cases hb; exact .faulted hs _ (.diffAlg rs1 rs2 a a' ht ht' hne)

/-! ### Every command answers a next state -/

theorem whenRunning_total {body : Host.Outcome State Fault Refusal} (h : ∃ t, body = .next t) :
    ∃ t, whenRunning s body = .next t := by
  unfold whenRunning; split
  · exact ⟨_, rfl⟩
  · exact h

theorem withIndex_total {n bound : Nat} {body : Host.Outcome State Fault Refusal} (h : ∃ t, body = .next t) :
    ∃ t, withIndex s n bound body = .next t := by
  unfold withIndex; split
  · exact ⟨_, rfl⟩
  · exact h

theorem withDigest_total {d : SlotNo} {k : Alg → Host.Outcome State Fault Refusal} (h : ∀ a, ∃ t, k a = .next t) :
    ∃ t, withDigest s d k = .next t := by
  obtain he | ⟨a, ha⟩ := tag_cases (s.slot d)
  · rw [withDigest_empty he]; exact ⟨_, rfl⟩
  · rw [withDigest_tag ha]; exact h a

/-- No command ends in a fault or a refusal of the model. -/
theorem exec_total (i : Instr) (s : State) : ∃ t, exec i s = .next t := by
  cases i with
  | csrRd csr =>
    simp only [exec, execCsrRd]; split
    · exact ⟨_, rfl⟩
    · exact whenRunning_total ⟨_, rfl⟩
  | msgClr => exact whenRunning_total ⟨_, rfl⟩
  | msgPush imm =>
    refine whenRunning_total ?_
    split
    · split <;> exact ⟨_, rfl⟩
    · exact ⟨_, rfl⟩
  | padNblk => exact whenRunning_total ⟨_, rfl⟩
  | padByteMd5 p => exact whenRunning_total (withIndex_total ⟨_, rfl⟩)
  | padByteSha1 p => exact whenRunning_total (withIndex_total ⟨_, rfl⟩)
  | md5 rd => exact whenRunning_total ⟨_, rfl⟩
  | md5R rd r => exact whenRunning_total ⟨_, rfl⟩
  | sha1 rd => exact whenRunning_total ⟨_, rfl⟩
  | sha1R rd r => refine whenRunning_total ?_; split <;> exact ⟨_, rfl⟩
  | dgMov rd rs1 => exact whenRunning_total (withDigest_total fun _ => ⟨_, rfl⟩)
  | dgWord rs1 j => exact whenRunning_total (withDigest_total fun _ => withIndex_total ⟨_, rfl⟩)
  | dgByte rs1 n => exact whenRunning_total (withDigest_total fun _ => withIndex_total ⟨_, rfl⟩)
  | dgHexc rs1 n => exact whenRunning_total (withDigest_total fun _ => withIndex_total ⟨_, rfl⟩)
  | dgDiff rs1 rs2 =>
    refine whenRunning_total (withDigest_total fun _ => withDigest_total fun _ => ?_)
    split <;> exact ⟨_, rfl⟩

/-- What a step can do: nothing (no input), reset, or a command word, legal or not. -/
theorem step_cases (h : step s = .next t) :
    (s.pending = [] ∧ t = s) ∨
    (∃ x rest, s.pending = x :: rest ∧ (x = .reset ∨ ∃ cw, x = .resetDuring cw) ∧
      t = hostReset (s.takeInput rest)) ∨
    (∃ cw rest i, s.pending = .command cw :: rest ∧ decode cw = .ok i ∧
      exec i ((s.takeInput rest).present cw) = .next t) ∨
    (∃ cw rest e, s.pending = .command cw :: rest ∧ decode cw = .error e ∧
      illegalWord ((s.takeInput rest).present cw) = .next t) := by
  simp only [step, runNext] at h
  split at h
  · rename_i hp; cases h; exact .inl ⟨hp, rfl⟩
  · rename_i x rest hp
    cases x with
    | reset => cases h; exact .inr (.inl ⟨_, rest, hp, .inl rfl, rfl⟩)
    | resetDuring cw => cases h; exact .inr (.inl ⟨_, rest, hp, .inr ⟨cw, rfl⟩, rfl⟩)
    | command cw =>
      simp only [runInput, runCommand] at h
      split at h
      · rename_i i hd; exact .inr (.inr (.inl ⟨cw, rest, i, hp, hd, h⟩))
      · rename_i e hd; exact .inr (.inr (.inr ⟨cw, rest, e, hp, hd, h⟩))

end Sys2Proof.Machine
end

