-- ==== Sys2Proof/Laws/Memory.lean ====
section
/-! SUPPORT. The laws of the message memory: a read after a write, and that a write keeps the canonical form. -/

namespace Sys2Proof.Machine

theorem read_write_self (m : Memory) (a : Nat) (v : Byte) : (m.write a v).read a = some v := by
  induction m with
  | nil => simp [Memory.write, Memory.read]
  | cons cell rest ih =>
    obtain ⟨k, x⟩ := cell
    simp only [Memory.write]
    split
    · simp [Memory.read]
    · split
      · simp [Memory.read]
      · rename_i h1 h2
        simp [Memory.read, Ne.symm h2, ih]

theorem read_write_ne (m : Memory) (a b : Nat) (v : Byte) (h : b ≠ a) : (m.write a v).read b = m.read b := by
  induction m with
  | nil => simp [Memory.write, Memory.read, Ne.symm h]
  | cons cell rest ih =>
    obtain ⟨k, x⟩ := cell
    simp only [Memory.write]
    split
    · simp [Memory.read, Ne.symm h]
    · split
      · rename_i h2
        subst h2
        simp [Memory.read, Ne.symm h]
      · simp [Memory.read, ih]

theorem above_write (m : Memory) (a b : Nat) (v : Byte) (hb : a < b) (h : Memory.above a m = true) :
    Memory.above a (m.write b v) = true := by
  induction m with
  | nil => simp [Memory.write, Memory.above, hb]
  | cons cell rest ih =>
    obtain ⟨k, x⟩ := cell
    simp only [Memory.above, List.all_cons, Bool.and_eq_true, decide_eq_true_eq] at h ih
    simp only [Memory.write]
    split
    · simp [Memory.above, hb, h.1]; simpa using h.2
    · split
      · simp [Memory.above, hb]; simpa using h.2
      · simp only [Memory.above, List.all_cons, Bool.and_eq_true, decide_eq_true_eq]
        exact ⟨h.1, ih h.2⟩

theorem above_trans (m : Memory) (a b : Nat) (hab : a < b) (h : Memory.above b m = true) :
    Memory.above a m = true := by
  simp only [Memory.above, List.all_eq_true, decide_eq_true_eq] at *
  exact fun c hc => lt_trans hab (h c hc)

/-- A write keeps the canonical form. -/
theorem wf_write (m : Memory) (a : Nat) (v : Byte) (h : m.wf = true) : (m.write a v).wf = true := by
  induction m with
  | nil => rfl
  | cons cell rest ih =>
    obtain ⟨k, x⟩ := cell
    simp only [Memory.wf, Bool.and_eq_true] at h
    simp only [Memory.write]
    split
    · rename_i hak
      simp only [Memory.wf, Bool.and_eq_true]
      refine ⟨?_, h⟩
      have := above_trans rest a k hak h.1
      simp only [Memory.above, List.all_cons, Bool.and_eq_true, decide_eq_true_eq] at this ⊢
      exact ⟨hak, this⟩
    · split
      · rename_i hk
        subst hk
        simp only [Memory.wf, Bool.and_eq_true]
        exact h
      · simp only [Memory.wf, Bool.and_eq_true]
        exact ⟨above_write rest k a v (by omega) h.1, ih h.2⟩

theorem byteAt_write_self (m : Memory) (a : Nat) (v : Byte) : (m.write a v).byteAt a = v := by
  simp [Memory.byteAt, read_write_self]

theorem byteAt_write_ne (m : Memory) (a b : Nat) (v : Byte) (h : b ≠ a) :
    (m.write a v).byteAt b = m.byteAt b := by
  simp [Memory.byteAt, read_write_ne m a b v h]

/-- A listed address stays listed. -/
theorem isSome_read_write (m : Memory) (a b : Nat) (v : Byte) (h : (m.read b).isSome = true) :
    ((m.write a v).read b).isSome = true := by
  by_cases e : b = a
  · subst e; simp [read_write_self]
  · rwa [read_write_ne m a b v e]

/-- After reset the memory lists nothing, so it has the canonical form. -/
theorem wf_reset : State.reset.msg.wf = true := rfl

end Sys2Proof.Machine
end

