-- ==== Sys2Proof/Laws/Padder.lean ====
section
/-! SUPPORT. The length field of the padded message: its value wherever the spec gives one, and its size. -/

namespace Sys2Proof.Machine

theorem bitlen_of_fits {l : Nat} (h : 8 * l < 2 ^ 64) : bitlen l = BitVec.ofNat 64 (8 * l) :=
  if_pos h

/-- Inside CORE, where `L` is a 32-bit value, the bit length always fits (R10, R176). -/
theorem bitlen_len (len : Word) : (bitlen len.toNat).toNat = 8 * len.toNat := by
  have := len.isLt
  rw [bitlen_of_fits (by omega), BitVec.toNat_ofNat]
  omega

theorem length_trailer (alg : Alg) (l : Nat) : (trailer alg l).length = 8 := by
  cases alg <;> rfl

end Sys2Proof.Machine
end

