-- ==== Sys2Proof/Laws/PerInstr.lean ====
section
/-! SUPPORT. For each command: the command word that `encode` makes of it selects that command's own row of the opcode
table and no other. -/

namespace Sys2Proof

/-- The row of a command. -/
def Instr.op : Instr → Op
  | .csrRd _ => .csrRd
  | .msgClr => .msgClr
  | .msgPush _ => .msgPush
  | .padNblk => .padNblk
  | .padByteMd5 _ => .padByteMd5
  | .padByteSha1 _ => .padByteSha1
  | .md5 _ => .md5
  | .md5R _ _ => .md5R
  | .sha1 _ => .sha1
  | .sha1R _ _ => .sha1R
  | .dgMov _ _ => .dgMov
  | .dgWord _ _ => .dgWord
  | .dgByte _ _ => .dgByte
  | .dgHexc _ _ => .dgHexc
  | .dgDiff _ _ => .dgDiff

/-! ### Words as fields -/

theorem append_inj' {v w : Nat} {a a' : BitVec v} {b b' : BitVec w} (e : a ++ b = a' ++ b') : a = a' ∧ b = b' := by
  have h1 := congrArg (BitVec.extractLsb' w v) e
  have h2 := congrArg (BitVec.extractLsb' 0 w) e
  rw [BitVec.extractLsb'_append_eq_left, BitVec.extractLsb'_append_eq_left] at h1
  rw [BitVec.extractLsb'_append_eq_right, BitVec.extractLsb'_append_eq_right] at h2
  exact ⟨h1, h2⟩

/-- Two words of format `C` are equal exactly when their fields are. -/
theorem fields_inj {op op' : BitVec 8} {rd rd' r1 r1' r2 r2' : BitVec 4} {z z' : BitVec 12} {im im' : BitVec 32} :
    (op ++ rd ++ r1 ++ r2 ++ z ++ im : CmdWord) = op' ++ rd' ++ r1' ++ r2' ++ z' ++ im' ↔
      op = op' ∧ rd = rd' ∧ r1 = r1' ∧ r2 = r2' ∧ z = z' ∧ im = im' := by
  constructor
  · intro h
    obtain ⟨h, h6⟩ := append_inj' h
    obtain ⟨h, h5⟩ := append_inj' h
    obtain ⟨h, h4⟩ := append_inj' h
    obtain ⟨h, h3⟩ := append_inj' h
    obtain ⟨h1, h2⟩ := append_inj' h
    exact ⟨h1, h2, h3, h4, h5, h6⟩
  · rintro ⟨rfl, rfl, rfl, rfl, rfl, rfl⟩; rfl

section
variable (op : BitVec 8) (rd r1 r2 : BitVec 4) (z : BitVec 12) (im : Word)

@[simp] theorem opField_append : opField (op ++ rd ++ r1 ++ r2 ++ z ++ im) = op :=
  (BitVec.extractLsb'_append_eq_of_le (by decide)).trans <|
    (BitVec.extractLsb'_append_eq_of_le (by decide)).trans <|
    (BitVec.extractLsb'_append_eq_of_le (by decide)).trans <|
    (BitVec.extractLsb'_append_eq_of_le (by decide)).trans <|
    BitVec.extractLsb'_append_eq_left

@[simp] theorem rdField_append : rdField (op ++ rd ++ r1 ++ r2 ++ z ++ im) = rd :=
  (BitVec.extractLsb'_append_eq_of_le (by decide)).trans <|
    (BitVec.extractLsb'_append_eq_of_le (by decide)).trans <|
    (BitVec.extractLsb'_append_eq_of_le (by decide)).trans <|
    (BitVec.extractLsb'_append_eq_of_le (by decide)).trans <|
    BitVec.extractLsb'_append_eq_right

@[simp] theorem rs1Field_append : rs1Field (op ++ rd ++ r1 ++ r2 ++ z ++ im) = r1 :=
  (BitVec.extractLsb'_append_eq_of_le (by decide)).trans <|
    (BitVec.extractLsb'_append_eq_of_le (by decide)).trans <|
    (BitVec.extractLsb'_append_eq_of_le (by decide)).trans <|
    BitVec.extractLsb'_append_eq_right

@[simp] theorem rs2Field_append : rs2Field (op ++ rd ++ r1 ++ r2 ++ z ++ im) = r2 :=
  (BitVec.extractLsb'_append_eq_of_le (by decide)).trans <|
    (BitVec.extractLsb'_append_eq_of_le (by decide)).trans <|
    BitVec.extractLsb'_append_eq_right

@[simp] theorem immField_append : immField (op ++ rd ++ r1 ++ r2 ++ z ++ im) = im :=
  BitVec.extractLsb'_append_eq_right

@[simp] theorem opField_packC : opField (packC op rd r1 r2 im) = op := opField_append ..
@[simp] theorem rdField_packC : rdField (packC op rd r1 r2 im) = rd := rdField_append ..
@[simp] theorem rs1Field_packC : rs1Field (packC op rd r1 r2 im) = r1 := rs1Field_append ..
@[simp] theorem rs2Field_packC : rs2Field (packC op rd r1 r2 im) = r2 := rs2Field_append ..
@[simp] theorem immField_packC : immField (packC op rd r1 r2 im) = im := immField_append ..

/-- Every word is its fields. -/
theorem word_eq_fields (cw : CmdWord) :
    cw = opField cw ++ rdField cw ++ rs1Field cw ++ rs2Field cw ++ cw.extractLsb' 32 12 ++ immField cw := by
  apply BitVec.eq_of_getElem_eq
  intro i hi
  change cw[i] = (show BitVec (8 + 4 + 4 + 4 + 12 + 32) from
    opField cw ++ rdField cw ++ rs1Field cw ++ rs2Field cw ++ cw.extractLsb' 32 12 ++ immField cw)[i]
  simp only [opField, rdField, rs1Field, rs2Field, immField, BitVec.getElem_append, BitVec.getElem_extractLsb']
  split_ifs <;> rw [← BitVec.getLsbD_eq_getElem] <;> congr 1 <;> omega

end

/-! ### Selecting a row -/

/-- A row whose mask and match value are given by fields selects a word exactly when each field agrees under its part of
the mask. -/
theorem selects_fields (r : OpRow) (op : BitVec 8) (rd r1 r2 : BitVec 4) (z : BitVec 12) (im : Word)
    (mo vo : BitVec 8) (md m1 m2 : BitVec 4) (mz : BitVec 12) (mi : BitVec 32)
    (hm : r.mask = mo ++ md ++ m1 ++ m2 ++ mz ++ mi)
    (hv : r.value = vo ++ (0 : BitVec 4) ++ (0 : BitVec 4) ++ (0 : BitVec 4) ++ (0 : BitVec 12) ++ (0 : BitVec 32)) :
    r.selects (op ++ rd ++ r1 ++ r2 ++ z ++ im) = true ↔
      op &&& mo = vo ∧ rd &&& md = 0 ∧ r1 &&& m1 = 0 ∧ r2 &&& m2 = 0 ∧ z &&& mz = 0 ∧ im &&& mi = 0 := by
  have e : (op ++ rd ++ r1 ++ r2 ++ z ++ im : CmdWord) &&& (mo ++ md ++ m1 ++ m2 ++ mz ++ mi) =
      (op &&& mo) ++ (rd &&& md) ++ (r1 &&& m1) ++ (r2 &&& m2) ++ (z &&& mz) ++ (im &&& mi) := by
    simp only [BitVec.and_append]
  rw [OpRow.selects, beq_iff_eq, hm, hv, e]
  exact fields_inj

/-- A row selects no word with another `op`. -/
theorem not_selects (r : OpRow) (cw : CmdWord) (hm : opField r.mask = 0xFF) (hv : opField r.value ≠ opField cw) :
    r.selects cw = false := by
  rw [Bool.eq_false_iff]
  intro h
  simp only [OpRow.selects, beq_iff_eq] at h
  refine hv ?_
  rw [← h]
  simp only [opField] at hm ⊢
  rw [BitVec.extractLsb'_and, hm]
  exact BitVec.and_allOnes

/-- The rows of other `op` values before a row do not hide it. -/
theorem findOp_of_selects (before after : List OpRow) (r : OpRow) (cw : CmdWord) (ht : opTable = before ++ r :: after)
    (hb : before.all (fun x => opField x.mask == 0xFF && opField x.value != opField r.value) = true)
    (ho : opField cw = opField r.value) (hr : r.selects cw = true) : findOp cw = some r.op := by
  have hn : before.find? (·.selects cw) = none := by
    rw [List.find?_eq_none]
    intro x hx
    have := List.all_eq_true.mp hb x hx
    simp only [Bool.and_eq_true, beq_iff_eq, bne_iff_ne] at this
    simp [not_selects x cw this.1 (ho ▸ this.2)]
  simp [findOp, ht, List.find?_append, hn, hr]

theorem slotField_and (d : SlotNo) : slotField d &&& 0xC = 0 := by
  fin_cases d <;> rfl

@[simp] theorem slotOfField_slotField (d : SlotNo) : slotOfField (slotField d) = d := by
  fin_cases d <;> rfl

theorem push_and {imm : Word} (h : pushOperandLegal imm = true) : imm &&& 0xFFFFFF00 = 0 := by
  simp only [pushOperandLegal, decide_eq_true_eq] at h
  apply BitVec.eq_of_toNat_eq
  have e : (0xFFFFFF00 : BitVec 32).toNat = 2 ^ 8 * 0xFFFFFF := rfl
  rw [BitVec.toNat_and, e, Nat.and_comm]
  apply Nat.eq_of_testBit_eq
  intro i
  rw [Nat.testBit_and, Nat.testBit_two_pow_mul]
  by_cases hi : 8 ≤ i
  · have : imm.toNat.testBit i = false :=
      Nat.testBit_lt_two_pow (lt_of_lt_of_le h (Nat.pow_le_pow_right (n := 2) (by norm_num) hi))
    simp [this]
  · simp [hi]

namespace Laws.EncodesRow

/-- The command word of a well-formed command selects the command's own row. -/
def Statement (i : Instr) : Prop := i.wf = true → findOp (encode i) = some i.op

/-- The common shape of the proofs: the row is the `n`-th, and the fields agree under the parts of its mask. -/
theorem of_row (i : Instr) (n : Nat) (hn : n < opTable.length) (op : BitVec 8) (rd r1 r2 : BitVec 4) (im : Word)
    (md m1 m2 : BitVec 4) (mi : BitVec 32) (he : encode i = packC op rd r1 r2 im)
    (hb : (opTable.take n).all
      (fun x => opField x.mask == 0xFF && opField x.value != opField opTable[n].value) = true)
    (hm : opTable[n].mask = (0xFF : BitVec 8) ++ md ++ m1 ++ m2 ++ (0xFFF : BitVec 12) ++ mi)
    (hv : opTable[n].value =
      op ++ (0 : BitVec 4) ++ (0 : BitVec 4) ++ (0 : BitVec 4) ++ (0 : BitVec 12) ++ (0 : BitVec 32))
    (h1 : rd &&& md = 0) (h2 : r1 &&& m1 = 0) (h3 : r2 &&& m2 = 0) (h4 : im &&& mi = 0)
    (hop : opTable[n].op = i.op) : findOp (encode i) = some i.op := by
  have hsplit : opTable = opTable.take n ++ opTable[n] :: opTable.drop (n + 1) := by
    rw [← List.drop_eq_getElem_cons hn, List.take_append_drop]
  rw [he, ← hop]
  refine findOp_of_selects _ _ _ _ hsplit hb ?_ ?_
  · rw [opField_packC, hv]; exact (opField_append ..).symm
  · rw [packC, selects_fields _ _ _ _ _ _ _ _ _ _ _ _ _ _ hm hv]
    exact ⟨BitVec.and_allOnes, h1, h2, h3, by simp, h4⟩

theorem csrRd (csr : Word) : Statement (.csrRd csr) := fun _ =>
  of_row _ 0 (by decide) _ _ _ _ _ 0xF 0xF 0xF 0 rfl (by decide) (by decide) (by decide)
    rfl rfl rfl BitVec.and_zero rfl

theorem msgClr : Statement (.msgClr) := fun _ =>
  of_row _ 1 (by decide) _ _ _ _ _ 0xF 0xF 0xF 0xFFFFFFFF rfl (by decide) (by decide) (by decide)
    rfl rfl rfl rfl rfl

theorem msgPush (imm : Word) : Statement (.msgPush imm) := fun h =>
  of_row _ 2 (by decide) _ _ _ _ _ 0xF 0xF 0xF 0xFFFFFF00 rfl (by decide) (by decide) (by decide)
    rfl rfl rfl (push_and h) rfl

theorem padNblk : Statement (.padNblk) := fun _ =>
  of_row _ 3 (by decide) _ _ _ _ _ 0xF 0xF 0xF 0xFFFFFFFF rfl (by decide) (by decide) (by decide)
    rfl rfl rfl rfl rfl

theorem padByteMd5 (p : Word) : Statement (.padByteMd5 p) := fun _ =>
  of_row _ 4 (by decide) _ _ _ _ _ 0xF 0xF 0xF 0 rfl (by decide) (by decide) (by decide)
    rfl rfl rfl BitVec.and_zero rfl

theorem padByteSha1 (p : Word) : Statement (.padByteSha1 p) := fun _ =>
  of_row _ 5 (by decide) _ _ _ _ _ 0xF 0xF 0xF 0 rfl (by decide) (by decide) (by decide)
    rfl rfl rfl BitVec.and_zero rfl

theorem md5 (rd : SlotNo) : Statement (.md5 rd) := fun _ =>
  of_row _ 6 (by decide) _ _ _ _ _ 0xC 0xF 0xF 0xFFFFFFFF rfl (by decide) (by decide) (by decide)
    (slotField_and _) rfl rfl rfl rfl

theorem md5R (rd : SlotNo) (r : Word) : Statement (.md5R rd r) := fun _ =>
  of_row _ 7 (by decide) _ _ _ _ _ 0xC 0xF 0xF 0 rfl (by decide) (by decide) (by decide)
    (slotField_and _) rfl rfl BitVec.and_zero rfl

theorem sha1 (rd : SlotNo) : Statement (.sha1 rd) := fun _ =>
  of_row _ 8 (by decide) _ _ _ _ _ 0xC 0xF 0xF 0xFFFFFFFF rfl (by decide) (by decide) (by decide)
    (slotField_and _) rfl rfl rfl rfl

theorem sha1R (rd : SlotNo) (r : Word) : Statement (.sha1R rd r) := fun _ =>
  of_row _ 9 (by decide) _ _ _ _ _ 0xC 0xF 0xF 0 rfl (by decide) (by decide) (by decide)
    (slotField_and _) rfl rfl BitVec.and_zero rfl

theorem dgMov (rd rs1 : SlotNo) : Statement (.dgMov rd rs1) := fun _ =>
  of_row _ 10 (by decide) _ _ _ _ _ 0xC 0xC 0xF 0xFFFFFFFF rfl (by decide) (by decide) (by decide)
    (slotField_and _) (slotField_and _) rfl rfl rfl

theorem dgWord (rs1 : SlotNo) (j : Word) : Statement (.dgWord rs1 j) := fun _ =>
  of_row _ 11 (by decide) _ _ _ _ _ 0xF 0xC 0xF 0 rfl (by decide) (by decide) (by decide)
    rfl (slotField_and _) rfl BitVec.and_zero rfl

theorem dgByte (rs1 : SlotNo) (n : Word) : Statement (.dgByte rs1 n) := fun _ =>
  of_row _ 12 (by decide) _ _ _ _ _ 0xF 0xC 0xF 0 rfl (by decide) (by decide) (by decide)
    rfl (slotField_and _) rfl BitVec.and_zero rfl

theorem dgHexc (rs1 : SlotNo) (n : Word) : Statement (.dgHexc rs1 n) := fun _ =>
  of_row _ 13 (by decide) _ _ _ _ _ 0xF 0xC 0xF 0 rfl (by decide) (by decide) (by decide)
    rfl (slotField_and _) rfl BitVec.and_zero rfl

theorem dgDiff (rs1 rs2 : SlotNo) : Statement (.dgDiff rs1 rs2) := fun _ =>
  of_row _ 14 (by decide) _ _ _ _ _ 0xF 0xC 0xC 0xFFFFFFFF rfl (by decide) (by decide) (by decide)
    rfl (slotField_and _) (slotField_and _) rfl rfl

end Laws.EncodesRow

end Sys2Proof
end

