-- ==== Sys2Proof/Tests/Slice0.lean ====
section
/-! SUPPORT. The model's own tests: ill-formed terms refused, decoding of words written out from the spec, single steps with
values from 95_test_vectors.md, and a witness for the hypotheses of every statement that has some. -/

open Sys2Proof Sys2Proof.Machine Sys2Proof.Claims

namespace Sys2Proof.Tests

/-! ### Small states -/

/-- A CORE with `MSG_CAP = 256` just after reset, as 95_test_vectors.md part 3 has it. -/
def core256 : State := State.resetWith 256

/-- `core256` with the message `bs` loaded. -/
def loaded (bs : List Byte) : State :=
  { core256 with msg := bs.zipIdx.map fun p => (p.2, p.1), len := BitVec.ofNat 32 bs.length }

/-- The message "abc". -/
def abc : State := loaded [0x61, 0x62, 0x63]

/-- The slot with the MD5 digest of "abc" (95_test_vectors.md 2.3). -/
def md5Abc : Slot := ⟨.md5, #v[0x98500190, 0xB04FD23C, 0x7D3F96D6, 0x727FE128, 0]⟩

/-- The slot with the SHA-1 digest of "abc" (95_test_vectors.md 2.4). -/
def sha1Abc : Slot := ⟨.sha1, #v[0xA9993E36, 0x4706816A, 0xBA3E2571, 0x7850C26C, 0x9CD0D89D]⟩

/-- "abc" loaded, `d0` its MD5 digest, `d2` its SHA-1 digest, `d1` and `d3` empty. -/
def digests : State := (abc.setSlot 0 md5Abc).setSlot 2 sha1Abc

/-- A halted CORE: `FLT = 5`, as in program P3. -/
def haltedCore : State := { core256 with flt := 5, fcmd := 0x4400100000000000 }

/-- The host presents `cw` next, and after it the words `rest`. -/
def offer (s : State) (cw : CmdWord) (rest : List CmdWord := []) : State :=
  { s with pending := .command cw :: rest.map .command }

/-- The response of an outcome, if it is a next state with one. -/
def respOf (o : Host.Outcome State Fault Refusal) : Option Response :=
  match o with
  | .next t => t.resp
  | .fault _ => none
  | .refused _ => none

/-- A field of the next state, if there is one. -/
def after {α : Type} (o : Host.Outcome State Fault Refusal) (f : State → α) : Option α :=
  match o with
  | .next t => some (f t)
  | .fault _ => none
  | .refused _ => none

/-! ### WellFormed: each check refuses an ill-formed term -/

theorem test_wf_push_refused : (Instr.msgPush 256).wf = false := by decide
theorem test_wf_push_accepted : (Instr.msgPush 255).wf = true := by decide
theorem test_wf_csr_006_refused : (Instr.csrRd 0x006).wf = false := by decide
theorem test_wf_csr_00F_refused : (Instr.csrRd 0x00F).wf = false := by decide
theorem test_wf_csr_014_refused : (Instr.csrRd 0x014).wf = false := by decide

/-! ### Decoding: words written out from R131 and R138, bit by bit -/

/-- `op = 0x01`, `rd = rs1 = rs2 = 0`, `zero = 0`, `imm = 0x013`. -/
theorem test_decode_csrRd :
    decode 0b0000000100000000000000000000000000000000000000000000000000010011#64 = .ok (.csrRd 0x013) := by decide
/-- `op = 0x10`. -/
theorem test_decode_msgClr :
    decode 0b0001000000000000000000000000000000000000000000000000000000000000#64 = .ok .msgClr := by decide
/-- `op = 0x11`, `imm = 0x61`. -/
theorem test_decode_msgPush :
    decode 0b0001000100000000000000000000000000000000000000000000000001100001#64 = .ok (.msgPush 0x61) := by decide
/-- `op = 0x18`. -/
theorem test_decode_padNblk :
    decode 0b0001100000000000000000000000000000000000000000000000000000000000#64 = .ok .padNblk := by decide
/-- `op = 0x19`, `imm = 56`. -/
theorem test_decode_padByteMd5 :
    decode 0b0001100100000000000000000000000000000000000000000000000000111000#64 = .ok (.padByteMd5 56) := by decide
/-- `op = 0x1A`, `imm = 2^31`. -/
theorem test_decode_padByteSha1 :
    decode 0b0001101000000000000000000000000010000000000000000000000000000000#64 =
      .ok (.padByteSha1 0x80000000) := by decide
/-- `op = 0x20`, `rd = 3`. -/
theorem test_decode_md5 :
    decode 0b0010000000110000000000000000000000000000000000000000000000000000#64 = .ok (.md5 3) := by decide
/-- `op = 0x21`, `rd = 1`, `imm = 32`. -/
theorem test_decode_md5R :
    decode 0b0010000100010000000000000000000000000000000000000000000000100000#64 = .ok (.md5R 1 32) := by decide
/-- `op = 0x30`, `rd = 2`. -/
theorem test_decode_sha1 :
    decode 0b0011000000100000000000000000000000000000000000000000000000000000#64 = .ok (.sha1 2) := by decide
/-- `op = 0x31`, `rd = 3`, `imm = 80`. -/
theorem test_decode_sha1R :
    decode 0b0011000100110000000000000000000000000000000000000000000001010000#64 = .ok (.sha1R 3 80) := by decide
/-- `op = 0x40`, `rd = 2`, `rs1 = 1`. -/
theorem test_decode_dgMov :
    decode 0b0100000000100001000000000000000000000000000000000000000000000000#64 = .ok (.dgMov 2 1) := by decide
/-- `op = 0x41`, `rs1 = 2`, `imm = 4`. -/
theorem test_decode_dgWord :
    decode 0b0100000100000010000000000000000000000000000000000000000000000100#64 = .ok (.dgWord 2 4) := by decide
/-- `op = 0x42`, `rs1 = 3`, `imm = 15`. -/
theorem test_decode_dgByte :
    decode 0b0100001000000011000000000000000000000000000000000000000000001111#64 = .ok (.dgByte 3 15) := by decide
/-- `op = 0x43`, `rs1 = 3`, `imm = 39`. -/
theorem test_decode_dgHexc :
    decode 0b0100001100000011000000000000000000000000000000000000000000100111#64 = .ok (.dgHexc 3 39) := by decide
/-- `op = 0x44`, `rs1 = 2`, `rs2 = 1`. -/
theorem test_decode_dgDiff :
    decode 0b0100010000000010000100000000000000000000000000000000000000000000#64 = .ok (.dgDiff 2 1) := by decide

/-- The illegal words of 95_test_vectors.md 2.6 whose `op` is reserved (R140). -/
theorem test_decode_reserved :
    decode 0x0000000000000000 = .error .reservedOp ∧
    decode 0xFFFFFFFFFFFFFFFF = .error .reservedOp ∧
    decode 0x0200000000000000 = .error .reservedOp ∧
    decode 0x4500000000000000 = .error .reservedOp := by
  refine ⟨?_, ?_, ?_, ?_⟩ <;> decide

/-- The illegal words of 95_test_vectors.md 2.6 with a wrong bit (R141) or a slot operand of 4 (R142). -/
theorem test_decode_stray :
    decode 0x1000000000000001 = .error .strayBits ∧
    decode 0x1100000000000100 = .error .strayBits ∧
    decode 0x2000000100000000 = .error .strayBits ∧
    decode 0x2001000000000000 = .error .strayBits ∧
    decode 0x2040000000000000 = .error .strayBits ∧
    decode 0x3140000000000063 = .error .strayBits ∧
    decode 0x4400400000000000 = .error .strayBits ∧
    decode 0x0110000000000000 = .error .strayBits := by
  refine ⟨?_, ?_, ?_, ?_, ?_, ?_, ?_, ?_⟩ <;> decide

/-- The illegal words of 95_test_vectors.md 2.6 with an undefined CSR index (R145). -/
theorem test_decode_undefined_csr :
    decode 0x0100000000000006 = .error .undefinedCsr ∧
    decode 0x0100000000000014 = .error .undefinedCsr := by
  refine ⟨?_, ?_⟩ <;> decide

/-- The table's row of `DG.DIFF` by number, and that `withFetchWord` makes the very next step run it. -/
theorem test_decodeTableWord : decodeTableWord 64 0x4400100000000000 = some (.dgDiff 0 1) := by decide
theorem test_withFetchWord : step (State.reset.withFetchWord 64 0x1800000000000000) =
    exec .padNblk (State.reset.present 0x1800000000000000) := rfl
/-- `MSG.PUSH` as the first command after reset is accepted, whatever the capacity is (R9, R173). -/
theorem test_push_first_after_reset :
    respOf (step (State.reset.withFetchWord 64 0x1100000000000061)) = some ⟨0, 0⟩ := by decide

/-! ### Notation (95_test_vectors.md 2.1) -/

theorem test_rotl32 : rotl32 0x80000001 1 = 0x00000003 ∧ rotl32 0x12345678 7 = 0x1A2B3C09 ∧
    rotl32 0x12345678 30 = 0x048D159E := by decide
theorem test_popcount32 : popcount32 0 = 0 ∧ popcount32 0xFFFFFFFF = 32 ∧ popcount32 0x80000001 = 2 := by decide
theorem test_bytes : le32 0x80 0 0 0 = 0x00000080 ∧ be32 0x80 0 0 0 = 0x80000000 ∧
    leBytes32 0xD98C1DD4 = [0xD4, 0x1D, 0x8C, 0xD9] ∧ beBytes32 0xDA39A3EE = [0xDA, 0x39, 0xA3, 0xEE] ∧
    leBytes64 0x1B8 = [0xB8, 0x01, 0, 0, 0, 0, 0, 0] ∧ beBytes64 0x1B8 = [0, 0, 0, 0, 0, 0, 0x01, 0xB8] := by decide

/-! ### The Padder (95_test_vectors.md 2.2) -/

theorem test_zeroCount : [0, 1, 3, 43, 54, 55, 56, 57, 63, 64, 119, 120].map zeroCount =
    [55, 54, 52, 12, 1, 0, 63, 62, 56, 55, 0, 63] := by decide
theorem test_plen : [0, 54, 55, 56, 57, 63, 64, 119, 120, 2 ^ 32 - 64].map plen =
    [64, 64, 64, 128, 128, 128, 128, 128, 192, 2 ^ 32] := by decide +kernel
theorem test_pad_abc :
    pad .md5 [0x61, 0x62, 0x63] = [0x61, 0x62, 0x63, 0x80] ++ List.replicate 52 0 ++ [0x18, 0, 0, 0, 0, 0, 0, 0] ∧
    pad .sha1 [0x61, 0x62, 0x63] =
      [0x61, 0x62, 0x63, 0x80] ++ List.replicate 52 0 ++ [0, 0, 0, 0, 0, 0, 0, 0x18] := by decide +kernel
theorem test_pad_last16 : (pad .md5 (List.replicate 55 0x78)).drop 48 =
    [0x78, 0x78, 0x78, 0x78, 0x78, 0x78, 0x78, 0x80, 0xB8, 0x01, 0, 0, 0, 0, 0, 0] := by decide +kernel

/-! ### Constants and single steps of the engines (95_test_vectors.md 2.3, 2.4) -/

theorem test_md5_tables : [0, 1, 15, 16, 63].map md5K = [0xD76AA478, 0xE8C7B756, 0x49B40821, 0xF61E2562, 0xEB86D391] ∧
    [0, 15, 16, 31, 32, 47, 48, 63].map md5Shift = [7, 22, 5, 20, 4, 23, 6, 21] ∧
    [16, 17, 31, 32, 47, 48, 49, 63].map md5Widx = [1, 6, 12, 5, 2, 0, 7, 9] := by decide +kernel
theorem test_md5_table_lengths : md5K0.length = 16 ∧ md5K1.length = 16 ∧ md5K2.length = 16 ∧ md5K3.length = 16 := by
  decide

/-- The only block of the padded empty message, as MD5 reads it: `M[0] = 00000080`, all else 0. -/
def emptyBlock : Vector Word 16 := blockWords .md5 (padBlockByte .md5 [] 0)

theorem test_md5_step_0 : md5Step 0 md5Init emptyBlock = ⟨0x10325476, 0xA5202774, 0xEFCDAB89, 0x98BADCFE⟩ := by
  decide +kernel
theorem test_md5_step_64 : md5Step 64 ⟨0x7246FAD3, 0x14E45506, 0xFF4EA3EB, 0x6E10A476⟩ emptyBlock =
    ⟨0x6E10A476, 0x1804F3EA, 0x14E45506, 0xFF4EA3EB⟩ := by decide +kernel

/-- The schedule of the block of "abc". -/
def abcSchedule : Vector Word 80 := sha1Schedule (blockWords .sha1 (padBlockByte .sha1 [0x61, 0x62, 0x63] 0))

theorem test_sha1_schedule : abcSchedule[0] = 0x61626380 ∧ abcSchedule[15] = 0x18 ∧ abcSchedule[16] = 0xC2C4C700 ∧
    abcSchedule[31] = 0x5898E048 ∧ abcSchedule[79] = 0x822E0879 := by decide +kernel
theorem test_sha1_step_0 : sha1Step 0 sha1Init abcSchedule =
    ⟨0x0116FC33, 0x67452301, 0x7BF36AE2, 0x98BADCFE, 0x10325476⟩ := by decide +kernel

/-! ### One command (95_test_vectors.md 2.2 to 2.7) -/

/-- After reset `ID` and `CAP`; then the tag codes of an MD5, an empty and a SHA-1 slot (programs P1 and P2, R67). -/
theorem test_csrRd_id_cap_tags : respOf (exec (.csrRd 0) core256) = some ⟨0, 0x4D355331⟩ ∧
    respOf (exec (.csrRd 1) core256) = some ⟨0, 0x100⟩ ∧ respOf (exec (.csrRd 0x010) digests) = some ⟨0, 1⟩ ∧
    respOf (exec (.csrRd 0x011) digests) = some ⟨0, 0⟩ ∧ respOf (exec (.csrRd 0x012) digests) = some ⟨0, 2⟩ := by decide
/-- Program P3: while halted, `FLT`, `FCMD_LO` and `FCMD_HI` read as recorded. -/
theorem test_csrRd_halted : respOf (exec (.csrRd 3) haltedCore) = some ⟨0, 5⟩ ∧
    respOf (exec (.csrRd 4) haltedCore) = some ⟨0, 0⟩ ∧ respOf (exec (.csrRd 5) haltedCore) = some ⟨0, 0x44001000⟩ := by
  decide

theorem test_msgClr : after (exec .msgClr abc) (·.len) = some 0 ∧
    after (exec .msgClr abc) (·.msg) = some [(0, 0x61), (1, 0x62), (2, 0x63)] := by decide
theorem test_msgPush : after (exec (.msgPush 0x63) (loaded [0x61, 0x62])) (fun t => (t.msg, t.len)) =
    some ([(0, 0x61), (1, 0x62), (2, 0x63)], 3) := by decide
/-- Program P5: the third byte with `MSG_CAP = 2`. -/
theorem test_msgPush_full : after (step (offer { loaded [1, 2] with cap := 2 } 0x1100000000000003))
    (fun t => (t.resp, t.len, t.flt, t.fcmd)) = some (some ⟨2, 0⟩, 2, 2, 0x1100000000000003) := by decide

theorem test_padNblk : respOf (exec .padNblk abc) = some ⟨0, 1⟩ := by decide
theorem test_padByteMd5 : [0, 3, 4, 56, 63, 64].map (fun p => respOf (exec (.padByteMd5 p) abc)) =
    [some ⟨0, 0x61⟩, some ⟨0, 0x80⟩, some ⟨0, 0⟩, some ⟨0, 0x18⟩, some ⟨0, 0⟩, some ⟨6, 0⟩] := by decide
theorem test_padByteSha1 : [0, 56, 63, 64].map (fun p => respOf (exec (.padByteSha1 p) abc)) =
    [some ⟨0, 0x61⟩, some ⟨0, 0⟩, some ⟨0, 0x18⟩, some ⟨6, 0⟩] := by decide

theorem test_md5_abc : after (exec (.md5 0) abc) (·.slot 0) = some md5Abc := by decide +kernel
/-- 56 bytes take two blocks. -/
theorem test_md5R_1_two_blocks : after (exec (.md5R 1 1) (loaded (List.replicate 56 0x78))) (·.slot 1) =
    some ⟨.md5, #v[0x2064A8EB, 0x79BE77ED, 0x59B25740, 0x3175B9FB, 0]⟩ := by decide +kernel
/-- The table index wraps after 64 steps. -/
theorem test_md5R_65 : after (exec (.md5R 1 65) core256) (·.slot 1) =
    some ⟨.md5, #v[0xD555C777, 0x07D29F73, 0xAD9F3204, 0x0F80F861, 0]⟩ := by decide +kernel
theorem test_sha1_abc : after (exec (.sha1 2) abc) (·.slot 2) = some sha1Abc := by decide +kernel
theorem test_sha1R_2_two_blocks : after (exec (.sha1R 3 2) (loaded (List.replicate 56 0x78))) (·.slot 3) =
    some ⟨.sha1, #v[0x5B3929B1, 0xCBA9DA60, 0x45904938, 0x8E246E85, 0x4F19E4AC]⟩ := by decide +kernel
/-- Program P5, second variant. -/
theorem test_sha1R_81 : after (step (offer core256 0x3100000000000051))
    (fun t => (t.resp, t.flt, t.fcmd, (t.slot 0).tag)) = some (some ⟨3, 0⟩, 3, 0x3100000000000051, .empty) := by decide

theorem test_dgMov : after (exec (.dgMov 1 2) digests) (·.slot 1) = some sha1Abc := by decide
theorem test_dgMov_empty : respOf (exec (.dgMov 0 1) digests) = some ⟨4, 0⟩ := by decide
theorem test_dgWord : respOf (exec (.dgWord 0 3) digests) = some ⟨0, 0x727FE128⟩ ∧
    respOf (exec (.dgWord 2 4) digests) = some ⟨0, 0x9CD0D89D⟩ := by decide
theorem test_dgWord_faults : respOf (exec (.dgWord 1 9) digests) = some ⟨4, 0⟩ ∧
    respOf (exec (.dgWord 0 4) digests) = some ⟨6, 0⟩ ∧ respOf (exec (.dgWord 2 5) digests) = some ⟨6, 0⟩ := by decide
theorem test_dgByte : [0, 1, 14, 15].map (fun n => respOf (exec (.dgByte 0 n) digests)) =
      [some ⟨0, 0x90⟩, some ⟨0, 0x01⟩, some ⟨0, 0x7F⟩, some ⟨0, 0x72⟩] ∧
    [0, 19].map (fun n => respOf (exec (.dgByte 2 n) digests)) = [some ⟨0, 0xA9⟩, some ⟨0, 0x9D⟩] := by decide
theorem test_dgByte_faults : respOf (exec (.dgByte 0 16) digests) = some ⟨6, 0⟩ ∧
    respOf (exec (.dgByte 2 20) digests) = some ⟨6, 0⟩ := by decide
theorem test_dgHexc : [0, 1, 2, 3, 9, 30, 31].map (fun n => respOf (exec (.dgHexc 0 n) digests)) =
      [some ⟨0, 0x39⟩, some ⟨0, 0x30⟩, some ⟨0, 0x30⟩, some ⟨0, 0x31⟩, some ⟨0, 0x63⟩, some ⟨0, 0x37⟩,
        some ⟨0, 0x32⟩] ∧
    [0, 39].map (fun n => respOf (exec (.dgHexc 2 n) digests)) = [some ⟨0, 0x61⟩, some ⟨0, 0x64⟩] := by decide
theorem test_dgHexc_faults : respOf (exec (.dgHexc 0 32) digests) = some ⟨6, 0⟩ ∧
    respOf (exec (.dgHexc 2 40) digests) = some ⟨6, 0⟩ := by decide
/-- The distance of the MD5 digests of the empty message at `R = 0` and `R = 1` is 72. -/
theorem test_dgDiff : respOf (exec (.dgDiff 0 1)
    ((core256.setSlot 0 ⟨.md5, #v[0xCE8A4602, 0xDF9B5712, 0x3175B9FC, 0x2064A8EC, 0]⟩).setSlot 1
      ⟨.md5, #v[0x77777777, 0x94EDD2FD, 0x88888887, 0xA8ED3174, 0]⟩)) = some ⟨0, 72⟩ := by decide
theorem test_dgDiff_faults : respOf (exec (.dgDiff 0 1) digests) = some ⟨4, 0⟩ ∧
    respOf (exec (.dgDiff 1 0) digests) = some ⟨4, 0⟩ ∧ respOf (exec (.dgDiff 2 0) digests) = some ⟨5, 0⟩ := by decide

/-- Program P3: a halted CORE refuses commands and illegal words alike. -/
theorem test_halted_refuses : [0x1000000000000000, 0x4100000000000000, 0x0100000000000006, 0].map
    (fun cw => after (step (offer haltedCore cw)) (fun t => (t.resp, t.flt, t.fcmd))) =
    List.replicate 4 (some (some ⟨0x7F, 0⟩, 5, 0x4400100000000000)) := by decide
/-- Program P3: reset leaves the halted state. -/
theorem test_reset : after (step { haltedCore with pending := [.reset] }) (fun t => (t.flt, t.fcmd, t.len, t.resp)) =
    some (0, 0, 0, none) := by decide
/-- R251, R254: the micro-sequence has no step with index 80; the sequencer would stay where it is. -/
theorem test_sha1_mix_80_has_no_step (j : HashJob) (hj : j.alg = .sha1) (e : Engine) (hk : e.k = 80) (hr : e.k < e.r) :
    e.doMix j = e := by
  simp only [Engine.doMix, if_pos hr, hj]
  exact dif_neg (by rw [hk]; decide)

/-! ### Witnesses: the hypotheses of each statement can be met, clause by clause -/

theorem witness_DecodeOfEncode : ∀ i ∈ ([.msgPush 255, .csrRd 0x000, .csrRd 0x005, .csrRd 0x010, .csrRd 0x013,
    .md5R 3 0xFFFFFFFF, .dgDiff 3 3] : List Instr), i.wf = true := by decide
theorem witness_EncodeOfDecode : decode 0x11000000000000FF = .ok (.msgPush 255) := by decide
theorem witness_LegalExactlyByFields_legal : LegalFields 0x11 0 0 0 0 255 :=
  ⟨⟨0x11, false, false, false, .byte⟩, by decide, rfl, rfl, rfl, rfl, rfl, by simp [immOk]⟩
theorem witness_RowsDoNotOverlap : ∃ r ∈ opTable, r.selects 0x01000000FFFFFFFF = true := by decide
theorem witness_StepRunsDecodedCommand : ∃ (s : State) (cw : CmdWord) (rest : List HostInput) (i : Instr),
    s.pending = .command cw :: rest ∧ decode cw = .ok i :=
  ⟨offer abc 0x2110000000000020, 0x2110000000000020, [], .md5R 1 32, rfl, by decide⟩

/-- A slot field of 4, the first illegal value, and one bit in each field that must be 0. -/
theorem witness_IllegalFieldsFault_slot : core256.flt = 0 ∧ ¬ LegalFields 0x20 4 0 0 0 0 := by
  refine ⟨rfl, ?_⟩
  rintro ⟨u, hu, ho, h1, _⟩
  fin_cases hu <;> revert ho h1 <;> simp [slotFieldOk]
theorem witness_IllegalFieldsFault_zero : ¬ LegalFields 0x20 0 0 0 1 0 := by
  rintro ⟨_, _, _, _, _, _, h, _⟩
  revert h; decide
theorem witness_IllegalFieldsFault_push : ¬ LegalFields 0x11 0 0 0 0 256 := by
  rintro ⟨u, hu, ho, _, _, _, _, h⟩
  fin_cases hu <;> revert ho h <;> simp [immOk]
theorem witness_IllegalFieldsFault_csr : ¬ LegalFields 0x01 0 0 0 0 6 ∧ ¬ LegalFields 0x01 0 0 0 0 0x00F ∧
    ¬ LegalFields 0x01 0 0 0 0 0x014 := by
  refine ⟨?_, ?_, ?_⟩ <;> · rintro ⟨u, hu, ho, _, _, _, _, h⟩; fin_cases hu <;> revert ho h <;> simp [immOk]

theorem witness_ReservedOpcodesFault : (core256.flt = 0) ∧
    reservedValue (BitVec.extractLsb' 56 8 (0x4500000000000000 : CmdWord)).toNat = true ∧
    (offer core256 0x4500000000000000).pending = .command 0x4500000000000000 :: [] := by decide
theorem witness_EveryCommandHasOneOfThreeOutcomes :
    (offer haltedCore 0x1000000000000000).pending = .command 0x1000000000000000 :: [] := rfl
theorem witness_HaltedCoreAnswersOnlyCsrRead : haltedCore.flt ≠ 0 ∧
    decode 0x0100000000000013 = .ok (.csrRd 0x013) ∧ ((0x013 : Word), (0 : Word)) ∈ csrTable haltedCore ∧
    ¬ ∃ csr, decode 0x1800000000000000 = .ok (.csrRd csr) := by
  refine ⟨by decide, by decide, by decide, ?_⟩
  rintro ⟨csr, h⟩
  rw [show decode 0x1800000000000000 = .ok .padNblk by decide] at h
  cases h
/-- The same with a slot that holds a digest: halted, `DGTAG2` of a SHA-1 slot. -/
theorem witness_HaltedCoreAnswersOnlyCsrRead_tag : ({ digests with flt := 5 } : State).flt ≠ 0 ∧
    decode 0x0100000000000012 = .ok (.csrRd 0x012) ∧ (0x012, 2) ∈ csrTable { digests with flt := 5 } := by
  refine ⟨?_, ?_, ?_⟩ <;> decide
theorem witness_HaltedUntilReset : ¬ Safe (offer haltedCore 0 [0x0100000000000003]) ∧
    ∀ x ∈ (offer haltedCore 0 [0x0100000000000003]).pending.take 3, ∃ cw, x = .command cw := by
  refine ⟨by unfold Safe; decide, ?_⟩
  intro x hx
  fin_cases hx <;> exact ⟨_, rfl⟩
theorem witness_ResetGivesResetState : ∃ s t : State, s.flt ≠ 0 ∧ s.pending = [.reset] ∧
    t.pending = [.resetDuring 0x2000000000000000] ∧ t.len = 3 :=
  ⟨{ haltedCore with pending := [.reset] }, { abc with pending := [.resetDuring 0x2000000000000000] },
    by decide, rfl, rfl, rfl⟩

/-- A state with a loaded byte and an MD5 digest, and `MSG.PUSH 0x62` as the next input. -/
def invState : State := offer ((loaded [0x61]).setSlot 0 md5Abc) 0x1100000000000062

/-- A CORE that `PAD.BYTE.MD5 64` has halted, and a `CSR.RD` as the next input. -/
def faultState : State := offer { core256 with flt := 6, fcmd := 0x1900000000000040 } 0x0100000000000003

theorem witness_StepKeepsInvariant : StateInv invState ∧ ∃ t, step invState = .next t ∧ t.len = 2 := by
  refine ⟨⟨by decide, ?_, ?_, by decide, by decide, by decide, by decide, by decide, rfl⟩, _, rfl, by decide⟩
  · intro a h
    by_cases ha : a = 0
    · subst ha; decide
    · simp [invState, offer, loaded, Memory.read, Ne.symm ha] at h
  · intro a h
    have ha : a = 0 := by
      have : invState.len.toNat = 1 := by decide
      omega
    subst ha; decide
theorem witness_RecordedFaultIsExplained : FaultExplained faultState ∧ ∃ t, step faultState = .next t := by
  refine ⟨.inr (.inr (.inr (.inr (.inr (.inr ⟨rfl, 0, 0x40, by decide, ?_⟩))))), _, rfl⟩
  rw [show decode faultState.fcmd = .ok (.padByteMd5 0x40) by decide]
  exact .head _

theorem witness_CsrReadAnswersRegister_defined : (0x000, 0x4D355331) ∈ csrTable haltedCore ∧
    (0x001, 0x100) ∈ csrTable haltedCore ∧ (0x005, 0x44001000) ∈ csrTable haltedCore ∧
    (0x010, 0) ∈ csrTable haltedCore ∧ (0x013, 0) ∈ csrTable haltedCore := by
  refine ⟨?_, ?_, ?_, ?_, ?_⟩ <;> decide
/-- Non-empty slots: an MD5 slot reads as 1, a SHA-1 slot as 2. -/
theorem witness_CsrReadAnswersRegister_tags : (0x010, 1) ∈ csrTable digests ∧ (0x011, 0) ∈ csrTable digests ∧
    (0x012, 2) ∈ csrTable digests := by
  refine ⟨?_, ?_, ?_⟩ <;> decide
theorem witness_CsrReadAnswersRegister_undefined : 0x006 ∉ (csrTable core256).map (·.1) ∧
    0x00F ∉ (csrTable core256).map (·.1) ∧ 0x014 ∉ (csrTable core256).map (·.1) ∧ core256.flt = 0 ∧
    haltedCore.flt ≠ 0 := by
  refine ⟨?_, ?_, ?_, ?_, ?_⟩ <;> decide

theorem witness_MsgClrEmptiesMessage : abc.flt = 0 ∧ abc.len ≠ 0 := by decide
/-- The last free byte, and the full memory. -/
theorem witness_MsgPushAppends : ∃ s s' : State, s.flt = 0 ∧ s.len < s.cap ∧ s.len + 1 = s.cap ∧ s'.flt = 0 ∧
    s'.len = s'.cap ∧ (0 : Word).toNat < 256 ∧ (255 : Word).toNat < 256 :=
  ⟨{ loaded [1] with cap := 2 }, { loaded [1, 2] with cap := 2 }, by decide⟩
theorem witness_MsgPushAppends_illegal : 256 ≤ (256 : Word).toNat ∧ abc.flt = 0 := by decide
theorem witness_MessageChangesOnlyByItsCommands : ∃ t, step (offer abc 0x1100000000000061) = .next t ∧ t.len = 4 :=
  ⟨_, rfl, by decide⟩
theorem witness_ZeroCountIsLeast : (55 + 1 + 0) % 64 = 56 ∧ 55 % 64 ≤ 55 ∧ 56 ≤ 56 % 64 ∧ 56 ≤ 63 % 64 := by decide
theorem witness_PaddedLength : (List.replicate 55 (0 : Byte)).length % 64 = 55 ∧
    (List.replicate 56 (0 : Byte)).length % 64 = 56 ∧ (List.replicate 56 (0 : Byte)).length ≤ 2 ^ 32 - 64 := by decide
theorem witness_PaddedMessageContract : 8 * ([0x61] : List Byte).length < 2 ^ 64 ∧ ([0x61] : List Byte).length < 55 ∧
    55 < (pad .md5 [0x61]).length - 8 := by decide
theorem witness_PadByteIsByteOfPaddedMessage : 0 < 64 * nblk abc.len.toNat ∧ 63 < 64 * nblk abc.len.toNat := by decide
theorem witness_LengthWordsOfLastBlock : 8 * ([0x61, 0x62] : List Byte).length < 2 ^ 64 := by decide
theorem witness_PadNblkAnswersBlockCount : abc.flt = 0 := rfl
/-- The last padded byte, and the first index beyond. -/
theorem witness_PadByteAnswersPaddedByte : abc.flt = 0 ∧ (pad .md5 abc.message)[(63 : Word).toNat]? = some 0 ∧
    (pad .sha1 abc.message)[(63 : Word).toNat]? = some 0x18 ∧ 64 * nblk abc.len.toNat ≤ (64 : Word).toNat := by decide

theorem witness_RotationMovesBits : 31 ≤ 31 ∧ 31 < 32 ∧ 0 ≤ 31 ∧ 0 < 32 ∧ 0 < 1 := by decide
theorem witness_ZeroRoundsDoubleTheAccumulator : 32 ≤ nblk (List.replicate 1976 (0 : Byte)).length := by
  rw [List.length_replicate]; decide
/-- Two blocks that agree in the words below 16 only where `r = 1` looks, and two equal ones for `r = 16`. -/
theorem witness_FewStepsReadFewWords : 1 ≤ 16 ∧ 16 ≤ 16 ∧ ∃ m m' : Vector Word 16, m ≠ m' ∧
    ∀ (j : Nat) (hj : j < 1), m[j] = m'[j] := by
  refine ⟨by decide, by decide, Vector.replicate 16 0, (Vector.replicate 16 0).set 1 7, by decide, ?_⟩
  intro j hj
  have : j = 0 := by omega
  subst this; rfl
theorem witness_ScheduleFollowsRecurrence : 15 < 16 ∧ 16 ≤ 16 ∧ 16 < 80 ∧ 16 ≤ 79 ∧ 79 < 80 := by decide

theorem witness_Md5WritesStandardDigest : abc.flt = 0 := rfl
theorem witness_Md5RWritesRoundDigest : digests.flt = 0 := rfl
theorem witness_Sha1WritesStandardDigest : core256.flt = 0 := rfl
/-- The largest legal round count, and the first illegal one. -/
theorem witness_Sha1RWritesRoundDigest : abc.flt = 0 ∧ (80 : Word).toNat ≤ 80 ∧ 80 < (81 : Word).toNat := by decide
/-- The same message beside other slots and a stale byte above `LEN`. -/
theorem witness_DigestDependsOnMessageAlone : ∃ s s' : State, s ≠ s' ∧ s.flt = 0 ∧ s'.flt = 0 ∧ s.len = s'.len ∧
    (∀ a, a < s.len.toNat → s.msg.byteAt a = s'.msg.byteAt a) ∧
    (∀ i i', ∃ t t', exec i s = .next t ∧ exec i' s' = .next t') := by
  refine ⟨abc, { digests with msg := digests.msg.write 3 0xFF }, by decide, rfl, rfl, rfl, ?_, fun i i' => ?_⟩
  · intro a ha
    have : a < 3 := ha
    exact (byteAt_write_ne abc.msg 3 a 0xFF (by omega)).symm
  · obtain ⟨t, ht⟩ := exec_total i abc
    obtain ⟨t', ht'⟩ := exec_total i' { digests with msg := digests.msg.write 3 0xFF }
    exact ⟨t, t', ht, ht'⟩

/-- `d0` is an MD5 slot, `d2` a SHA-1 slot, `d1` an empty one. -/
theorem witness_DgMovCopiesWholeSlot : digests.flt = 0 ∧ (digests.slot 2).tag ≠ .empty ∧
    (digests.slot 1).tag = .empty := by decide
theorem witness_DgWordAnswersWord : digests.flt = 0 ∧ (digests.slot 0).tag = .md5 ∧ (3 : Word).toNat < 4 ∧
    (digests.slot 2).tag = .sha1 ∧ (4 : Word).toNat < 5 ∧ (digests.slot 1).tag = .empty ∧ 4 ≤ (4 : Word).toNat ∧
    5 ≤ (5 : Word).toNat := by decide
theorem witness_DgByteAnswersSerializedByte : digests.flt = 0 ∧ (digests.slot 0).tag = .md5 ∧ (15 : Word).toNat < 16 ∧
    (digests.slot 2).tag = .sha1 ∧ (19 : Word).toNat < 20 ∧ (digests.slot 1).tag = .empty ∧ 16 ≤ (16 : Word).toNat ∧
    20 ≤ (20 : Word).toNat := by decide
theorem witness_DgHexcAnswersHexCharacter : digests.flt = 0 ∧ (digests.slot 0).tag = Alg.md5.tag ∧
    (ser .md5 (digests.slot 0).w)[(31 : Word).toNat / 2]? = some 0x72 ∧ (digests.slot 2).tag = Alg.sha1.tag ∧
    (ser .sha1 (digests.slot 2).w)[(39 : Word).toNat / 2]? = some 0x9D ∧ (digests.slot 1).tag = .empty ∧
    32 ≤ (32 : Word).toNat ∧ 40 ≤ (40 : Word).toNat := by decide
theorem witness_DgDiffAnswersHammingDistance : digests.flt = 0 ∧ (digests.slot 0).tag = Alg.md5.tag ∧
    (digests.slot 2).tag = Alg.sha1.tag ∧ (digests.slot 1).tag = .empty ∧ (digests.slot 0).tag ≠ .empty ∧
    (digests.slot 2).tag ≠ .empty ∧ (digests.slot 0).tag ≠ (digests.slot 2).tag := by decide

theorem witness_SlotsChangeOnlyAsAWhole : ∃ t, step (offer digests 0x4012000000000000) = .next t ∧
    t.slot 1 ≠ digests.slot 1 :=
  ⟨_, rfl, by decide⟩
theorem witness_RepeatingACommandChangesNothing : digests.flt = 0 ∧ (digests.slot 2).tag ≠ .empty ∧
    (80 : Word).toNat ≤ 80 ∧ ∀ i, ∃ t u, exec i digests = .next t ∧ exec i t = .next u := by
  refine ⟨rfl, by decide, by decide, fun i => ?_⟩
  obtain ⟨t, ht⟩ := exec_total i digests
  obtain ⟨u, hu⟩ := exec_total i t
  exact ⟨t, u, ht, hu⟩

end Sys2Proof.Tests
end

namespace Sys2Proof.Machine
/-! ## What keeps the invariant of CORE's states -/

section Invariant
variable {s t : State}

/-- The invariant speaks neither of the host's inputs nor of the command word presented. -/
theorem stateInv_present (h : StateInv s) (rest : List HostInput) (cw : CmdWord) :
    StateInv ((s.takeInput rest).present cw) := { h with }

theorem stateInv_respondOk (h : StateInv s) (v : Word) : StateInv (respondOk v s) := { h with }

theorem stateInv_refuseHalted (h : StateInv s) : StateInv (refuseHalted s) := { h with }

theorem faultCode_le_six (f : FaultCode) : f.code.toNat ≤ 6 := by cases f <;> decide

theorem faultCode_ne_zero (f : FaultCode) : f.code ≠ 0 := by cases f <;> decide

theorem stateInv_raiseFault (h : StateInv s) (f : FaultCode) : StateInv (raiseFault f s) :=
  { h with
    fltLegal := faultCode_le_six f
    fcmdClear := fun hf => absurd hf (faultCode_ne_zero f) }

theorem stateInv_hostReset (h : StateInv s) : StateInv (hostReset s) where
  msgCanonical := rfl
  msgInside a ha := by simp [Memory.read] at ha
  msgLoaded a ha := by simp at ha
  capLegal := h.capLegal
  lenLegal := Nat.zero_le _
  fltLegal := Nat.zero_le _
  fcmdClear _ := rfl
  md5Fifth d hd := by simp [Slot.reset] at hd
  idle := rfl

theorem stateInv_clearMessage (h : StateInv s) : StateInv (clearMessage s) :=
  { h with
    msgLoaded := fun a ha => by simp at ha
    lenLegal := Nat.zero_le _ }

/-- Below the capacity, `LEN + 1` does not wrap. -/
theorem toNat_len_add_one (hl : s.len < s.cap) : (s.len + 1).toNat = s.len.toNat + 1 := by
  bv_omega

theorem stateInv_appendByte (h : StateInv s) (hl : s.len < s.cap) (b : Byte) :
    StateInv (appendByte b s) :=
  { h with
    msgCanonical := wf_write _ _ _ h.msgCanonical
    msgInside := fun a ha => by
      by_cases e : a = s.len.toNat
      · rw [e]; exact hl
      · rw [appendByte_msg, read_write_ne _ _ _ _ e] at ha
        exact h.msgInside a ha
    msgLoaded := fun a ha => by
      by_cases e : a = s.len.toNat
      · rw [appendByte_msg, e, read_write_self]; rfl
      · rw [appendByte_len, toNat_len_add_one hl] at ha
        exact isSome_read_write _ _ _ _ (h.msgLoaded a (by omega))
    lenLegal := by
      rw [appendByte_len, toNat_len_add_one hl]
      exact hl }

/-- A slot may take any content whose fifth word is 0 if its tag is `MD5` (R72). -/
theorem stateInv_setSlot (h : StateInv s) (d : SlotNo) {x : Slot} (hx : x.tag = .md5 → x.w[4] = 0) :
    StateInv (s.setSlot d x) :=
  { h with
    md5Fifth := fun d' hd' => by
      by_cases e : d' = d
      · subst e
        rw [setSlot_slot_self] at hd' ⊢
        exact hx hd'
      · rw [setSlot_slot_ne s d d' x e] at hd' ⊢
        exact h.md5Fifth d' hd' }

theorem slotOf_md5Fifth (j : HashJob) (e : Engine) (h : (j.slotOf e).tag = .md5) : (j.slotOf e).w[4] = 0 := by
  cases hj : j.alg with
  | md5 => simp [HashJob.slotOf, hj, Md5Regs.slotWords]
  | sha1 => simp [HashJob.slotOf, hj] at h

theorem stateInv_afterHash (h : StateInv s) (alg : Alg) (r : Word) (rd : SlotNo) :
    StateInv (afterHash alg r rd s) :=
  { stateInv_setSlot h rd (slotOf_md5Fifth (s.hashJob alg r) ((s.hashJob alg r).result s.eng)) with
    idle := rfl }

/-- Whatever a command leaves behind meets the invariant. -/
theorem stateInv_effect {i : Instr} (h : StateInv s) (he : Effect i s t) : StateInv t := by
  cases he with
  | refused _ => exact stateInv_refuseHalted h
  | faulted _ f _ => exact stateInv_raiseFault h f
  | answered v _ => exact stateInv_respondOk h v
  | cleared _ _ => exact stateInv_respondOk (stateInv_clearMessage h) 0
  | appended _ imm _ hl => exact stateInv_respondOk (stateInv_appendByte h hl (immByte imm)) 0
  | hashed _ alg r rd _ => exact stateInv_respondOk (stateInv_afterHash h alg r rd) 0
  | moved _ rd rs1 _ _ => exact stateInv_respondOk (stateInv_setSlot h rd (h.md5Fifth rs1)) 0

theorem stateInv_illegalWord (h : StateInv s) (hi : illegalWord s = .next t) : StateInv t := by
  obtain ⟨_, rfl⟩ | ⟨_, rfl⟩ := illegalWord_next hi
  · exact stateInv_refuseHalted h
  · exact stateInv_raiseFault h .illegal

end Invariant

/-- Settles O14, by what a step can do: nothing, reset, a command's effect, or the answer to an illegal word. -/
theorem stepKeepsInvariant : Obligations.StepKeepsInvariant := by
  intro s t h hstep
  obtain ⟨_, rfl⟩ | ⟨x, rest, _, _, rfl⟩ | ⟨cw, rest, i, _, _, hexec⟩ | ⟨cw, rest, e, _, _, hill⟩ := step_cases hstep
  · exact h
  · exact stateInv_hostReset { h with }
  · exact stateInv_effect (stateInv_present h rest cw) (exec_effect hexec)
  · exact stateInv_illegalWord (stateInv_present h rest cw) hill

/-! ## Rotation -/

/-- R14, bit by bit: below the top the left shift supplies the bit, at the wrap the right shift does. -/
theorem getLsbD_rotl32 (x : Word) {n i : Nat} (hn : n ≤ 31) (hi : i < 32) :
    (rotl32 x n).getLsbD ((i + n) % 32) = x.getLsbD i := by
  rw [rotl32, BitVec.getLsbD_or, BitVec.getLsbD_shiftLeft, BitVec.getLsbD_ushiftRight]
  by_cases hw : i + n < 32
  · have hout : x.getLsbD (32 - n + (i + n)) = false := BitVec.getLsbD_of_ge _ _ (by omega)
    simp [Nat.mod_eq_of_lt hw, hw, hout]
  · have hmod : (i + n) % 32 = i + n - 32 := by omega
    have hback : 32 - n + (i + n - 32) = i := by omega
    have hlow : i + n - 32 < n := by omega
    simp [hmod, hback, hlow]

theorem rotl32_zero (x : Word) : rotl32 x 0 = x := by
  simp [rotl32, BitVec.ushiftRight_eq_zero]

theorem toNat_rotl32 (x : Word) (n : Nat) :
    (rotl32 x n).toNat = (x.toNat * 2 ^ n % 2 ^ 32) ||| (x.toNat / 2 ^ (32 - n)) := by
  rw [rotl32, BitVec.toNat_or, BitVec.toNat_shiftLeft, BitVec.toNat_ushiftRight, Nat.shiftLeft_eq,
    Nat.shiftRight_eq_div_pow]

/-- Settles O27: the bits one by one, the rotation by 0, and the two shifts as numbers. -/
theorem rotationMovesBits : Obligations.RotationMovesBits :=
  ⟨fun x _ _ hn hi => getLsbD_rotl32 x hn hi, rotl32_zero, fun x n _ _ => toNat_rotl32 x n⟩

/-! ## The Padder's bytes are those of the padded message (R178) -/

section Padder

@[simp] theorem length_bytes (m : Memory) (l : Nat) : (m.bytes l).length = l := by
  simp [Memory.bytes]

/-- The message that a hash job works on (R170). -/
def HashJob.message (j : HashJob) : List Byte := j.msg.bytes j.len.toNat

theorem hashJob_message (s : State) (alg : Alg) (r : Word) : (s.hashJob alg r).message = s.message := rfl

@[simp] theorem length_message (j : HashJob) : j.message.length = j.len.toNat := length_bytes _ _

theorem getD_bytes (m : Memory) {l p : Nat} (h : p < l) : (m.bytes l).getD p 0 = m.byteAt p := by
  simp [Memory.bytes, h]

/-- The trailer starts where the padded message has 8 bytes left (R175, R177). -/
theorem plen_eq (l : Nat) : plen l = l + 1 + zeroCount l + 8 := by
  unfold plen nblk zeroCount
  split <;> omega

theorem byteOf_eq_shift (v : BitVec 64) (q : Nat) : byteOf v q = (v >>> (8 * q)).setWidth 8 := by
  apply BitVec.eq_of_toNat_eq
  simp [byteOf]

theorem getD_leBytes64 (v : BitVec 64) {q : Nat} (h : q < 8) : (leBytes64 v).getD q 0 = byteOf v q := by
  interval_cases q <;> rfl

theorem getD_beBytes64 (v : BitVec 64) {q : Nat} (h : q < 8) : (beBytes64 v).getD q 0 = byteOf v (7 - q) := by
  interval_cases q <;> rfl

/-- Byte `p` of the padded message, by the piece it lies in: message, `0x80`, zeros, trailer. -/
theorem getD_pad (alg : Alg) (m : Memory) {l p : Nat} (hp : p < plen l) :
    (pad alg (m.bytes l)).getD p 0 = padByte alg m l p := by
  have hlen := plen_eq l
  unfold padByte pad
  rw [length_bytes, List.append_assoc, List.append_assoc, List.singleton_append]
  split_ifs with hmsg hmark hzero
  · rw [List.getD_append _ _ _ _ (by simpa using hmsg), getD_bytes m hmsg]
  · rw [List.getD_append_right _ _ _ _ (by simp [hmark]), length_bytes, hmark, Nat.sub_self]
    rfl
  · rw [List.getD_append_right _ _ _ _ (by simp; omega), length_bytes,
      show p - l = p - l - 1 + 1 by omega, List.getD_cons_succ,
      List.getD_append _ _ _ _ (by simp; omega), List.getD_replicate _ (by omega)]
  · rw [List.getD_append_right _ _ _ _ (by simp; omega), length_bytes,
      show p - l = p - l - 1 + 1 by omega, List.getD_cons_succ,
      List.getD_append_right _ _ _ _ (by simp; omega), List.length_replicate,
      show p - l - 1 - zeroCount l = p - (plen l - 8) by omega]
    have hq : p - (plen l - 8) < 8 := by omega
    cases alg with
    | md5 => exact (getD_leBytes64 _ hq).trans (byteOf_eq_shift _ _)
    | sha1 => exact (getD_beBytes64 _ hq).trans (byteOf_eq_shift _ _)

theorem blockWords_congr (alg : Alg) {B B' : Nat → Byte} (h : ∀ q < 64, B q = B' q) :
    blockWords alg B = blockWords alg B' := by
  unfold blockWords
  congr 1
  funext j
  simp only [blockWord]
  rw [h _ (by omega), h _ (by omega), h _ (by omega), h _ (by omega)]

/-- The words that LOAD makes of block `n` are the words of block `n` of the padded message (R180). -/
theorem blockWords_blockByte (j : HashJob) {n : Nat} (hn : n < nblk j.len.toNat) :
    blockWords j.alg (j.blockByte n) = blockWords j.alg (padBlockByte j.alg j.message n) := by
  refine blockWords_congr j.alg fun q hq => ?_
  rw [HashJob.blockByte, padBlockByte, HashJob.message, getD_pad j.alg j.msg (by unfold plen; omega)]

theorem nblk_pos (l : Nat) : 0 < nblk l := Nat.succ_pos _

/-- A 27-bit counter holds the block count of every message that `LEN` can count (R55). -/
theorem nblk_len_lt (len : Word) : nblk len.toNat < 2 ^ 27 := by
  have := len.isLt
  unfold nblk
  omega

end Padder

/-! ## The sequencer runs the pure functions (R56) -/

section Sequencer
variable {j : HashJob} {e e' : Engine} {n : Nat}

theorem microStep_load (h : e.phase = .load) : e.microStep j = e.doLoad j := by simp [Engine.microStep, h]
theorem microStep_expand (h : e.phase = .expand) : e.microStep j = e.doExpand j := by simp [Engine.microStep, h]
theorem microStep_fold (h : e.phase = .fold) : e.microStep j = e.doFold j := by simp [Engine.microStep, h]

/-- The engine after the last mixing step of a block, turned to FOLD. -/
def Engine.toFold (e : Engine) : Engine := { e with phase := .fold }

@[simp] theorem toFold_r (e : Engine) : e.toFold.r = e.r := rfl
@[simp] theorem toFold_n (e : Engine) : e.toFold.n = e.n := rfl
@[simp] theorem toFold_nb (e : Engine) : e.toFold.nb = e.nb := rfl
@[simp] theorem toFold_k (e : Engine) : e.toFold.k = e.k := rfl
@[simp] theorem md5Acc_toFold (e : Engine) : e.toFold.md5Acc = e.md5Acc := rfl
@[simp] theorem md5Work_toFold (e : Engine) : e.toFold.md5Work = e.md5Work := rfl
@[simp] theorem sha1Acc_toFold (e : Engine) : e.toFold.sha1Acc = e.sha1Acc := rfl
@[simp] theorem sha1Work_toFold (e : Engine) : e.toFold.sha1Work = e.sha1Work := rfl

/-- The mixing loop ends when the step counter has reached the round count. -/
theorem microStep_mix_end (h : e.phase = .mix) (hk : e.k = e.r) : e.microStep j = e.toFold := by
  simp [Engine.toFold, Engine.microStep, Engine.doMix, h, hk, BitVec.lt_irrefl]

/-- The engine when the mixing of a block begins: after LOAD and EXPAND from `e`. -/
def Engine.toMix (j : HashJob) (e : Engine) : Engine := (e.doLoad j).doExpand j

/-! ### One lemma per field for INIT, LOAD with EXPAND, and FOLD: the same for both algorithms -/

@[simp] theorem doInit_phase : (e.doInit j).phase = .load := by unfold Engine.doInit; cases j.alg <;> rfl
@[simp] theorem doInit_r : (e.doInit j).r = j.rounds := by unfold Engine.doInit; cases j.alg <;> rfl
@[simp] theorem doInit_n : (e.doInit j).n = 0 := by unfold Engine.doInit; cases j.alg <;> rfl
@[simp] theorem doInit_nb : (e.doInit j).nb = BitVec.ofNat 27 (nblk j.len.toNat) := by
  unfold Engine.doInit; cases j.alg <;> rfl

/-- LOAD and EXPAND for MD5: the block's words, and the accumulator in the working registers. -/
theorem toMix_md5 (hj : j.alg = .md5) : e.toMix j =
    { e with
      m := blockWords j.alg (j.blockByte e.n.toNat), k := 0, phase := .mix,
      a := e.h[0], b := e.h[1], c := e.h[2], d := e.h[3] } := by
  simp [Engine.toMix, Engine.doExpand, hj, Engine.doLoad, Engine.setMd5Work, Engine.md5Acc]

/-- LOAD and EXPAND for SHA-1: the block's words, their schedule, and the accumulator in the working registers. -/
theorem toMix_sha1 (hj : j.alg = .sha1) : e.toMix j =
    { e with
      m := blockWords j.alg (j.blockByte e.n.toNat), k := 0, phase := .mix,
      w := sha1Schedule (blockWords j.alg (j.blockByte e.n.toNat)),
      a := e.h[0], b := e.h[1], c := e.h[2], d := e.h[3], e := e.h[4] } := by
  simp [Engine.toMix, Engine.doExpand, hj, Engine.doLoad, Engine.setSha1Work, Engine.sha1Acc]

@[simp] theorem toMix_phase : (e.toMix j).phase = .mix := by
  cases hj : j.alg <;> simp [toMix_md5, toMix_sha1, hj]
@[simp] theorem toMix_k : (e.toMix j).k = 0 := by
  cases hj : j.alg <;> simp [toMix_md5, toMix_sha1, hj]
@[simp] theorem toMix_r : (e.toMix j).r = e.r := by
  cases hj : j.alg <;> simp [toMix_md5, toMix_sha1, hj]
@[simp] theorem toMix_n : (e.toMix j).n = e.n := by
  cases hj : j.alg <;> simp [toMix_md5, toMix_sha1, hj]
@[simp] theorem toMix_nb : (e.toMix j).nb = e.nb := by
  cases hj : j.alg <;> simp [toMix_md5, toMix_sha1, hj]
@[simp] theorem toMix_h : (e.toMix j).h = e.h := by
  cases hj : j.alg <;> simp [toMix_md5, toMix_sha1, hj]
@[simp] theorem toMix_m : (e.toMix j).m = blockWords j.alg (j.blockByte e.n.toNat) := by
  cases hj : j.alg <;> simp [toMix_md5, toMix_sha1, hj]

@[simp] theorem doFold_phase : (e.doFold j).phase = if e.n + 1 < e.nb then .load else .done := by
  unfold Engine.doFold; cases j.alg <;> rfl
@[simp] theorem doFold_r : (e.doFold j).r = e.r := by unfold Engine.doFold; cases j.alg <;> rfl
@[simp] theorem doFold_n : (e.doFold j).n = e.n + 1 := by unfold Engine.doFold; cases j.alg <;> rfl
@[simp] theorem doFold_nb : (e.doFold j).nb = e.nb := by unfold Engine.doFold; cases j.alg <;> rfl
@[simp] theorem doFold_k : (e.doFold j).k = e.k := by unfold Engine.doFold; cases j.alg <;> rfl

/-! ### The accumulator and the working registers, by algorithm -/

theorem md5Acc_doInit (hj : j.alg = .md5) : (e.doInit j).md5Acc = md5Init := by
  unfold Engine.doInit; rw [hj]; rfl

theorem sha1Acc_doInit (hj : j.alg = .sha1) : (e.doInit j).sha1Acc = sha1Init := by
  unfold Engine.doInit; rw [hj]; rfl

theorem md5Work_toMix (hj : j.alg = .md5) : (e.toMix j).md5Work = e.md5Acc := by
  rw [toMix_md5 hj]; rfl

theorem sha1Work_toMix (hj : j.alg = .sha1) : (e.toMix j).sha1Work = e.sha1Acc := by
  rw [toMix_sha1 hj]; rfl

theorem w_toMix (hj : j.alg = .sha1) :
    (e.toMix j).w = sha1Schedule (blockWords j.alg (j.blockByte e.n.toNat)) := by
  rw [toMix_sha1 hj]

theorem md5Acc_doFold (hj : j.alg = .md5) : (e.doFold j).md5Acc = e.md5Acc.add e.md5Work := by
  unfold Engine.doFold; rw [hj]; rfl

theorem sha1Acc_doFold (hj : j.alg = .sha1) : (e.doFold j).sha1Acc = e.sha1Acc.add e.sha1Work := by
  unfold Engine.doFold; rw [hj]; rfl

/-! ### One block -/

/-- The counters of the sequencer between two blocks, `blocks` of them being done: fixed by the job alone. -/
structure Engine.AtBlock (j : HashJob) (blocks : Nat) (e : Engine) : Prop where
  phase : e.phase = if blocks < nblk j.len.toNat then .load else .done
  r     : e.r = j.rounds
  n     : e.n.toNat = blocks
  nb    : e.nb.toNat = nblk j.len.toNat
  k     : 0 < blocks → e.k = j.rounds

theorem atBlock_doInit (j : HashJob) (e : Engine) : (e.doInit j).AtBlock j 0 where
  phase := by rw [doInit_phase, if_pos (nblk_pos _)]
  r := doInit_r
  n := by rw [doInit_n]; rfl
  nb := by rw [doInit_nb, BitVec.toNat_ofNat, Nat.mod_eq_of_lt (nblk_len_lt j.len)]
  k h := absurd h (Nat.lt_irrefl 0)

/-- When all blocks are done the sequencer is in DONE and its counters have their last values. -/
theorem Engine.AtBlock.done (h : e.AtBlock j (nblk j.len.toNat)) :
    e.phase = .done ∧ e.r = j.rounds ∧ e.nb.toNat = nblk j.len.toNat ∧ e.n = e.nb ∧ e.k = j.rounds :=
  ⟨by rw [h.phase, if_neg (Nat.lt_irrefl _)], h.r, h.nb, BitVec.eq_of_toNat_eq (h.n.trans h.nb.symm),
    h.k (nblk_pos _)⟩

/-- The micro-steps of one block: LOAD, EXPAND, `R` mixing steps, the end of the loop, FOLD. -/
theorem run_block (h : e.AtBlock j n) (hn : n < nblk j.len.toNat)
    (hm : Mixing (e.toMix j) (Engine.run j j.rounds.toNat (e.toMix j)) j.rounds.toNat) :
    Engine.run j (j.rounds.toNat + 4) e = (Engine.run j j.rounds.toNat (e.toMix j)).toFold.doFold j := by
  have hload : e.phase = .load := by rw [h.phase, if_pos hn]
  have hmix : Engine.run j 2 e = e.toMix j := by
    change (e.microStep j).microStep j = _
    rw [microStep_load hload, microStep_expand rfl, Engine.toMix]
  have hk : (Engine.run j j.rounds.toNat (e.toMix j)).k = (Engine.run j j.rounds.toNat (e.toMix j)).r := by
    rw [hm.r, toMix_r, h.r]
    exact BitVec.eq_of_toNat_eq hm.k
  rw [run_succ j (j.rounds.toNat + 3), run_succ j (j.rounds.toNat + 2), Nat.add_comm _ 2, run_add, hmix,
    microStep_mix_end hm.phase hk, microStep_fold rfl]

/-- FOLD brings the counters to the next block. -/
theorem atBlock_doFold (h : e.AtBlock j n) (hn : n < nblk j.len.toNat)
    (hm : Mixing (e.toMix j) e' j.rounds.toNat) : (e'.toFold.doFold j).AtBlock j (n + 1) := by
  have hcount : (e'.toFold.n + 1).toNat = n + 1 := by
    have hlt := nblk_len_lt j.len
    rw [toFold_n, hm.n, toMix_n, BitVec.toNat_add, h.n]
    simp only [BitVec.reduceToNat]
    omega
  have hnb : e'.toFold.nb.toNat = nblk j.len.toNat := by
    rw [toFold_nb, hm.nb, toMix_nb, h.nb]
  exact {
    phase := by simp only [doFold_phase, BitVec.lt_def, hcount, hnb]
    r := by rw [doFold_r, toFold_r, hm.r, toMix_r, h.r]
    n := by rw [doFold_n, hcount]
    nb := by rw [doFold_nb, hnb]
    k := fun _ => by rw [doFold_k, toFold_k]; exact BitVec.eq_of_toNat_eq hm.k }

/-- One block of MD5 on the engine is `md5_block` of the accumulator and the loaded words (R210). -/
theorem run_block_md5 (hj : j.alg = .md5) (h : e.AtBlock j n) (hn : n < nblk j.len.toNat) :
    (Engine.run j (j.rounds.toNat + 4) e).AtBlock j (n + 1) ∧
      (Engine.run j (j.rounds.toNat + 4) e).md5Acc =
        md5Block e.md5Acc (blockWords .md5 (padBlockByte .md5 j.message n)) j.rounds.toNat := by
  obtain ⟨hm, hw⟩ := mix_md5 j hj (e.toMix j) toMix_phase toMix_k j.rounds.toNat (by rw [toMix_r, h.r])
  rw [run_block h hn hm]
  refine ⟨atBlock_doFold h hn hm, ?_⟩
  generalize Engine.run j j.rounds.toNat (e.toMix j) = e' at hm hw
  have hacc : e'.md5Acc = e.md5Acc := by rw [Engine.md5Acc, hm.h, toMix_h, Engine.md5Acc]
  rw [md5Acc_doFold hj, md5Acc_toFold, md5Work_toFold, hacc, hw, md5Work_toMix hj, toMix_m, h.n,
    blockWords_blockByte j hn, hj, md5Block]

/-- One block of SHA-1 on the engine is `sha1_block` of the accumulator and the schedule of the loaded words (R247). -/
theorem run_block_sha1 (hj : j.alg = .sha1) (r : Fin 81) (hr : j.rounds.toNat = r.val) (h : e.AtBlock j n)
    (hn : n < nblk j.len.toNat) :
    (Engine.run j (j.rounds.toNat + 4) e).AtBlock j (n + 1) ∧
      (Engine.run j (j.rounds.toNat + 4) e).sha1Acc =
        sha1Block e.sha1Acc (sha1Schedule (blockWords .sha1 (padBlockByte .sha1 j.message n))) r := by
  have hr80 : j.rounds.toNat ≤ 80 := by omega
  obtain ⟨hm, hw⟩ := mix_sha1 j hj (e.toMix j) toMix_phase toMix_k j.rounds.toNat (by rw [toMix_r, h.r])
    (by rw [toMix_r, h.r]; exact hr80)
  rw [run_block h hn hm]
  refine ⟨atBlock_doFold h hn hm, ?_⟩
  generalize Engine.run j j.rounds.toNat (e.toMix j) = e' at hm hw
  have hacc : e'.sha1Acc = e.sha1Acc := by rw [Engine.sha1Acc, hm.h, toMix_h, Engine.sha1Acc]
  have hw80 : (e.toMix j).w = sha1Schedule (blockWords .sha1 (padBlockByte .sha1 j.message n)) := by
    rw [w_toMix hj, h.n, blockWords_blockByte j hn, hj]
  rw [sha1Acc_doFold hj, sha1Acc_toFold, sha1Work_toFold, hacc, hw, sha1Block]
  simp only [hr, sha1Work_toMix hj, hw80]

/-! ### All blocks -/

/-- What each stretch of `t` micro-steps passes on from block to block holds after all blocks. -/
theorem run_blocks (j : HashJob) (P : Nat → Engine → Prop) (t blocks : Nat) (h0 : P 0 e)
    (hstep : ∀ n < blocks, ∀ e, P n e → P (n + 1) (Engine.run j t e)) :
    P blocks (Engine.run j (blocks * t) e) := by
  induction blocks with
  | zero => rwa [Nat.zero_mul]
  | succ n ih =>
    rw [Nat.succ_mul, run_add]
    exact hstep n (Nat.lt_succ_self n) _ (ih fun i hi => hstep i (Nat.lt_succ_of_lt hi))

/-- The whole micro-sequence is INIT and then the blocks. -/
theorem result_eq (j : HashJob) (e : Engine) :
    j.result e =
      Engine.run j (nblk j.len.toNat * (j.rounds.toNat + 4)) (({ e with phase := .init } : Engine).doInit j) := by
  rw [HashJob.result, HashJob.microSteps, run_add]
  rfl

/-- Between two blocks of MD5 the counters and the accumulator are fixed by the job (R211). -/
def Engine.Md5At (j : HashJob) (n : Nat) (e : Engine) : Prop :=
  e.AtBlock j n ∧ e.md5Acc = md5Blocks j.message j.rounds.toNat n

/-- Between two blocks of SHA-1 the counters and the accumulator are fixed by the job (R248). -/
def Engine.Sha1At (j : HashJob) (r : Fin 81) (n : Nat) (e : Engine) : Prop :=
  e.AtBlock j n ∧ e.sha1Acc = sha1Blocks j.message r n

theorem md5At_run_block (hj : j.alg = .md5) (hn : n < nblk j.len.toNat) (h : e.Md5At j n) :
    (Engine.run j (j.rounds.toNat + 4) e).Md5At j (n + 1) := by
  obtain ⟨hat, hacc⟩ := h
  rw [Engine.Md5At, md5Blocks, ← hacc]
  exact run_block_md5 hj hat hn

theorem sha1At_run_block (hj : j.alg = .sha1) {r : Fin 81} (hr : j.rounds.toNat = r.val)
    (hn : n < nblk j.len.toNat) (h : e.Sha1At j r n) :
    (Engine.run j (j.rounds.toNat + 4) e).Sha1At j r (n + 1) := by
  obtain ⟨hat, hacc⟩ := h
  rw [Engine.Sha1At, sha1Blocks, ← hacc]
  exact run_block_sha1 hj r hr hat hn

theorem result_md5At (hj : j.alg = .md5) (e : Engine) : (j.result e).Md5At j (nblk j.len.toNat) := by
  rw [result_eq]
  exact run_blocks j (Engine.Md5At j) _ _ ⟨atBlock_doInit j _, md5Acc_doInit hj⟩
    fun n hn e h => md5At_run_block hj hn h

theorem result_sha1At (hj : j.alg = .sha1) {r : Fin 81} (hr : j.rounds.toNat = r.val) (e : Engine) :
    (j.result e).Sha1At j r (nblk j.len.toNat) := by
  rw [result_eq]
  exact run_blocks j (Engine.Sha1At j r) _ _ ⟨atBlock_doInit j _, sha1Acc_doInit hj⟩
    fun n hn e h => sha1At_run_block hj hr hn h

theorem md5Acc_result (hj : j.alg = .md5) (e : Engine) :
    (j.result e).md5Acc = md5Rounds j.message j.rounds.toNat := by
  rw [(result_md5At hj e).2, md5Rounds, length_message]

theorem sha1Acc_result (hj : j.alg = .sha1) {r : Fin 81} (hr : j.rounds.toNat = r.val) (e : Engine) :
    (j.result e).sha1Acc = sha1Rounds j.message r := by
  rw [(result_sha1At hj hr e).2, sha1Rounds, length_message]

end Sequencer

/-- Settles O32, by induction on the blocks: between two blocks the counters and the accumulator are fixed by the job. -/
theorem microSequenceComputesDigest : Obligations.MicroSequenceComputesDigest := by
  constructor
  · intro e r m len j
    obtain ⟨hphase, hr, hnb, hn, hk⟩ := (result_md5At (j := j) rfl e).1.done
    exact ⟨hphase, hr, hnb, hn, hk, md5Acc_result rfl e⟩
  · intro e r m len j
    have hrounds : j.rounds.toNat = r.val := Nat.mod_eq_of_lt (by omega)
    obtain ⟨hphase, hr, hnb, hn, hk⟩ := (result_sha1At (j := j) rfl hrounds e).1.done
    exact ⟨hphase, hr, hnb, hn, hk, sha1Acc_result rfl hrounds e⟩

end Sys2Proof.Machine

namespace Sys2Proof.Machine
/-! ## The reset state meets the invariants -/

/-- All that can be said of the open parameter `MSG_CAP` (R9). -/
theorem msgCap_legal : 1 ≤ Config.msgCap.toNat ∧ Config.msgCap.toNat ≤ 2 ^ 32 - 64 := by
  have hlt := Config.capacityPred.isLt
  rw [Config.msgCap, BitVec.toNat_ofNatLT]
  omega

@[simp] theorem resetWith_slot (cap : Word) (d : SlotNo) : (State.resetWith cap).slot d = Slot.reset :=
  hostReset_slot (State.resetWith cap) d

/-- `md5Fifth` holds because no slot has the tag `MD5`, whatever the words of the slots are. -/
theorem stateInv_resetWith {cap : Word} (hcap : 1 ≤ cap.toNat ∧ cap.toNat ≤ 2 ^ 32 - 64) :
    StateInv (State.resetWith cap) where
  msgCanonical := rfl
  msgInside _ ha := nomatch ha
  msgLoaded _ ha := absurd ha (Nat.not_lt_zero _)
  capLegal := hcap
  lenLegal := Nat.zero_le _
  fltLegal := Nat.zero_le _
  fcmdClear _ := rfl
  md5Fifth d hd := by
    rw [resetWith_slot] at hd
    exact nomatch hd
  idle := rfl

/-- Settles O13: the capacity is legal whatever it is, every tag is `EMPTY`, and no fault is recorded. -/
theorem resetMeetsInvariant : Obligations.ResetMeetsInvariant :=
  ⟨stateInv_resetWith msgCap_legal, .inl rfl⟩

/-! ## What a hash command writes depends on the message and the round count alone (R76) -/

theorem bytes_congr {m m' : Memory} {l : Nat} (h : ∀ a, a < l → m.byteAt a = m'.byteAt a) :
    m.bytes l = m'.bytes l :=
  List.map_congr_left fun a ha => h a (List.mem_range.mp ha)

/-- What stands in `MSG` at and above `LEN` is not part of the message (R91). -/
theorem message_congr {s s' : State} (hlen : s.len = s'.len)
    (h : ∀ a, a < s.len.toNat → s.msg.byteAt a = s'.msg.byteAt a) : s.message = s'.message := by
  rw [State.message, State.message, ← hlen]
  exact bytes_congr h

/-- The slot of an MD5 job: nothing of the engine that it was started on is in it (R211). -/
theorem slotOf_result_md5 {j : HashJob} (hj : j.alg = .md5) (e : Engine) :
    j.slotOf (j.result e) = ⟨.md5, (md5Rounds j.message j.rounds.toNat).slotWords⟩ := by
  rw [← md5Acc_result hj e]
  simp only [HashJob.slotOf, hj]

/-- The slot of a SHA-1 job: nothing of the engine that it was started on is in it (R248). -/
theorem slotOf_result_sha1 {j : HashJob} (hj : j.alg = .sha1) {r : Fin 81} (hr : j.rounds.toNat = r.val)
    (e : Engine) : j.slotOf (j.result e) = ⟨.sha1, (sha1Rounds j.message r).slotWords⟩ := by
  rw [← sha1Acc_result hj hr e]
  simp only [HashJob.slotOf, hj]

section HashCommand
variable {i : Instr} {alg : Alg} {r : Word} {rd : SlotNo}

/-- A SHA-1 command that hashes at all has a round count with a meaning (R254). -/
theorem Hashes.rounds_le (hi : Hashes i .sha1 r rd) : r.toNat ≤ 80 := by
  cases hi with
  | sha1 _ => decide
  | sha1R _ _ hr => exact hr

/-- In a running CORE every hash command completes, as DONE leaves it (R56). -/
theorem exec_hashes (hi : Hashes i alg r rd) {s : State} (hs : s.flt = 0) :
    exec i s = .next (respondOk 0 (afterHash alg r rd s)) := by
  have hrun : s.halted = false := (halted_eq_false_iff s).mpr hs
  cases hi with
  | md5 _ => exact whenRunning_running hrun
  | md5R _ _ => exact whenRunning_running hrun
  | sha1 _ => exact whenRunning_running hrun
  | sha1R _ _ hr => exact (whenRunning_running hrun).trans (if_neg (Nat.not_lt.mpr hr))

theorem slot_exec_hashes (hi : Hashes i alg r rd) {s t : State} (hs : s.flt = 0) (h : exec i s = .next t) :
    t.slot rd = (s.hashJob alg r).slotOf ((s.hashJob alg r).result s.eng) := by
  rw [exec_hashes hi hs] at h
  cases h
  rw [respondOk_slot, afterHash_slot_self]

/-- Two hash commands of one algorithm and round count write the same slot when they find the same message. -/
theorem slot_hashes_eq {i' : Instr} {rd' : SlotNo} (hi : Hashes i alg r rd) (hi' : Hashes i' alg r rd')
    {s s' t t' : State} (hs : s.flt = 0) (hs' : s'.flt = 0) (hmsg : s.message = s'.message)
    (h : exec i s = .next t) (h' : exec i' s' = .next t') : t.slot rd = t'.slot rd' := by
  rw [slot_exec_hashes hi hs h, slot_exec_hashes hi' hs' h']
  cases alg with
  | md5 =>
    rw [slotOf_result_md5 rfl, slotOf_result_md5 rfl, hashJob_message, hashJob_message, hmsg]
    rfl
  | sha1 =>
    have hr : r.toNat < 81 := Nat.lt_succ_of_le hi.rounds_le
    rw [slotOf_result_sha1 (r := ⟨r.toNat, hr⟩) rfl rfl, slotOf_result_sha1 (r := ⟨r.toNat, hr⟩) rfl rfl,
      hashJob_message, hashJob_message, hmsg]

end HashCommand

/-- Settles O37: the slot is that of the pure digest of the message, and both states hold the same message. -/
theorem digestDependsOnMessageAlone : Obligations.DigestDependsOnMessageAlone := by
  intro s s' rd rd' r t t' hs hs' hlen hbytes hexec
  have hmsg : s.message = s'.message := message_congr hlen hbytes
  obtain ⟨h, h'⟩ | ⟨h, h'⟩ | ⟨h, h'⟩ | ⟨hr, h, h'⟩ := hexec
  · exact slot_hashes_eq (.md5 rd) (.md5 rd') hs hs' hmsg h h'
  · exact slot_hashes_eq (.sha1 rd) (.sha1 rd') hs hs' hmsg h h'
  · exact slot_hashes_eq (.md5R rd r) (.md5R rd' r) hs hs' hmsg h h'
  · exact slot_hashes_eq (.sha1R rd r hr) (.sha1R rd' r hr) hs hs' hmsg h h'

end Sys2Proof.Machine

namespace Sys2Proof.Machine
/-! ## The trailer and the last two words of the padded message (R98) -/

section LastBlock
variable (alg : Alg) (msg : List Byte)

theorem length_pad : (pad alg msg).length = plen msg.length := by
  rw [plen_eq]
  simp only [pad, List.length_append, List.length_replicate, List.length_singleton, length_trailer]

theorem drop_pad : (pad alg msg).drop ((pad alg msg).length - 8) = trailer alg msg.length :=
  List.drop_left' (by simp only [pad, List.length_append, length_trailer, Nat.add_sub_cancel])

/-- The bytes 56 to 63 of the last block are the trailer. -/
theorem padBlockByte_last (q : Nat) :
    padBlockByte alg msg (nblk msg.length - 1) (56 + q) = (trailer alg msg.length).getD q 0 := by
  have hpos := nblk_pos msg.length
  have hindex : (pad alg msg).length - 8 + q = 64 * (nblk msg.length - 1) + (56 + q) := by
    rw [length_pad, plen]
    omega
  rw [← drop_pad alg msg, List.getD_eq_getElem?_getD, List.getElem?_drop, hindex,
    ← List.getD_eq_getElem?_getD, padBlockByte]

theorem getElem_blockWords (B : Nat → Byte) {j : Nat} (hj : j < 16) :
    (blockWords alg B)[j] = blockWord alg B j := by
  simp [blockWords]

/-- Four neighbouring bytes of a value, the lowest first, are the 32 bits they came from (R17). -/
theorem le32_byteOf {n : Nat} (v : BitVec n) (k : Nat) :
    le32 (byteOf v (4 * k)) (byteOf v (4 * k + 1)) (byteOf v (4 * k + 2)) (byteOf v (4 * k + 3)) =
      v.extractLsb' (32 * k) 32 := by
  simp only [le32, byteOf]
  rw [BitVec.extractLsb'_append_extractLsb'_eq_extractLsb' (by omega),
    BitVec.extractLsb'_append_extractLsb'_eq_extractLsb' (by omega),
    BitVec.extractLsb'_append_extractLsb'_eq_extractLsb' (by omega), show 8 * (4 * k) = 32 * k by omega]

theorem be32_eq_le32 (b0 b1 b2 b3 : Byte) : be32 b0 b1 b2 b3 = le32 b3 b2 b1 b0 := rfl

/-- MD5 puts the low half of the bit length into word 14, the high half into word 15. -/
theorem lastBlock_md5 {k : Nat} (hk : k < 2) :
    blockWord .md5 (padBlockByte .md5 msg (nblk msg.length - 1)) (14 + k) =
      (bitlen msg.length).extractLsb' (32 * k) 32 := by
  have hbyte (i : Nat) (hi : i < 4) :
      padBlockByte .md5 msg (nblk msg.length - 1) (4 * (14 + k) + i) = byteOf (bitlen msg.length) (4 * k + i) := by
    rw [show 4 * (14 + k) + i = 56 + (4 * k + i) by omega, padBlockByte_last]
    exact getD_leBytes64 _ (by omega)
  rw [blockWord, assembleWord, ← le32_byteOf, hbyte 1 (by omega), hbyte 2 (by omega), hbyte 3 (by omega)]
  congr 1
  exact hbyte 0 (by omega)

/-- SHA-1 puts the high half of the bit length into word 14, the low half into word 15. -/
theorem lastBlock_sha1 {k : Nat} (hk : k < 2) :
    blockWord .sha1 (padBlockByte .sha1 msg (nblk msg.length - 1)) (15 - k) =
      (bitlen msg.length).extractLsb' (32 * k) 32 := by
  have hbyte (i : Nat) (hi : i < 4) :
      padBlockByte .sha1 msg (nblk msg.length - 1) (4 * (15 - k) + i) =
        byteOf (bitlen msg.length) (4 * k + (3 - i)) := by
    rw [show 4 * (15 - k) + i = 56 + (7 - (4 * k + (3 - i))) by omega, padBlockByte_last]
    refine (getD_beBytes64 _ (by omega)).trans ?_
    congr 1
    omega
  rw [blockWord, assembleWord, be32_eq_le32, ← le32_byteOf, hbyte 1 (by omega), hbyte 2 (by omega),
    hbyte 3 (by omega)]
  congr 1
  exact hbyte 0 (by omega)

theorem toNat_bitlen {l : Nat} (h : 8 * l < 2 ^ 64) : (bitlen l).toNat = 8 * l := by
  rw [bitlen_of_fits h, BitVec.toNat_ofNat, Nat.mod_eq_of_lt h]

theorem toNat_bitlen_low {l : Nat} (h : 8 * l < 2 ^ 64) :
    ((bitlen l).extractLsb' 0 32).toNat = 8 * l % 2 ^ 32 := by
  rw [BitVec.extractLsb'_toNat, toNat_bitlen h, Nat.shiftRight_zero]

theorem toNat_bitlen_high {l : Nat} (h : 8 * l < 2 ^ 64) :
    ((bitlen l).extractLsb' 32 32).toNat = 8 * l / 2 ^ 32 := by
  rw [BitVec.extractLsb'_toNat, toNat_bitlen h, Nat.shiftRight_eq_div_pow, Nat.mod_eq_of_lt (by omega)]

end LastBlock

/-- Settles O24: the padded message ends in its trailer, and the last block's words 14 and 15 are its two halves. -/
theorem lengthWordsOfLastBlock : Obligations.LengthWordsOfLastBlock := by
  intro msg h md5Words sha1Words
  refine ⟨?_, ?_, ?_, ?_, ?_, ?_⟩
  · rw [drop_pad, trailer, bitlen_of_fits h]
  · rw [drop_pad, trailer, bitlen_of_fits h]
  · rw [getElem_blockWords .md5, lastBlock_md5 msg (k := 0) (by omega), toNat_bitlen_low h]
  · rw [getElem_blockWords .md5, lastBlock_md5 msg (k := 1) (by omega), toNat_bitlen_high h]
  · rw [getElem_blockWords .sha1, lastBlock_sha1 msg (k := 1) (by omega), toNat_bitlen_high h]
  · rw [getElem_blockWords .sha1, lastBlock_sha1 msg (k := 0) (by omega), toNat_bitlen_low h]

/-! ## Which commands change the message (R93) -/

section MessageFrame
variable {i : Instr} {s t : State}

/-- What a command does to `MSG` and `LEN`: nothing, or what `MSG.CLR` or `MSG.PUSH` does. -/
theorem message_effect (h : Effect i s t) :
    (t.msg = s.msg ∧ t.len = s.len) ∨ (i = .msgClr ∧ t.msg = s.msg) ∨
      ∃ imm, i = .msgPush imm ∧ t.len = s.len + 1 ∧ ∀ a, a ≠ s.len.toNat → t.msg.read a = s.msg.read a := by
  cases h with
  | refused _ => exact .inl ⟨rfl, rfl⟩
  | faulted _ _ _ => exact .inl ⟨rfl, rfl⟩
  | answered _ _ => exact .inl ⟨rfl, rfl⟩
  | cleared _ hi => exact .inr (.inl ⟨hi, rfl⟩)
  | appended _ imm hi _ => exact .inr (.inr ⟨imm, hi, rfl, fun a ha => read_write_ne _ _ _ _ ha⟩)
  | hashed _ _ _ _ _ => exact .inl ⟨rfl, rfl⟩
  | moved _ _ _ _ _ => exact .inl ⟨rfl, rfl⟩

/-- The capacity is hardwired (R63). -/
theorem cap_effect (h : Effect i s t) : t.cap = s.cap := by cases h <;> rfl

theorem illegalWord_frame (h : illegalWord s = .next t) : t.cap = s.cap ∧ t.msg = s.msg ∧ t.len = s.len := by
  obtain ⟨_, rfl⟩ | ⟨_, rfl⟩ := illegalWord_next h
  · exact ⟨rfl, rfl, rfl⟩
  · exact ⟨rfl, rfl, rfl⟩

end MessageFrame

/-- Settles O19, by what a step can do: nothing, reset, a command's effect, or the answer to an illegal word. -/
theorem messageChangesOnlyByItsCommands : Obligations.MessageChangesOnlyByItsCommands := by
  intro s t hstep
  obtain ⟨_, rfl⟩ | ⟨x, rest, hp, hx, rfl⟩ | ⟨cw, rest, i, hp, hd, hexec⟩ | ⟨cw, rest, e, _, _, hill⟩ :=
    step_cases hstep
  · exact ⟨rfl, .inl ⟨rfl, rfl⟩⟩
  · refine ⟨rfl, .inr ?_⟩
    obtain rfl | ⟨cw, rfl⟩ := hx
    · exact .inl ⟨rest, hp⟩
    · exact .inr (.inl ⟨cw, rest, hp⟩)
  · have heff := exec_effect hexec
    have hcap := cap_effect heff
    refine ⟨hcap, ?_⟩
    obtain hsame | ⟨rfl, hmsg⟩ | ⟨imm, rfl, hlen, hread⟩ := message_effect heff
    · exact .inl hsame
    · exact .inr (.inr (.inr (.inl ⟨cw, rest, hp, hd, hmsg⟩)))
    · exact .inr (.inr (.inr (.inr ⟨cw, rest, imm, hp, hd, hlen, hread⟩)))
  · obtain ⟨hcap, hmsg, hlen⟩ := illegalWord_frame hill
    exact ⟨hcap, .inl ⟨hmsg, hlen⟩⟩

/-! ## Commands that may be repeated (R105) -/

section Repeat
variable {i : Instr} {s t u : State}

/-- Two states hold the same message, slots and fault registers, and deliver the same response. -/
structure SameOutcome (t u : State) : Prop where
  msg  : u.msg = t.msg
  len  : u.len = t.len
  dg   : u.dg = t.dg
  flt  : u.flt = t.flt
  fcmd : u.fcmd = t.fcmd
  resp : u.resp = t.resp

/-- The slot file is its four slots. -/
theorem dg_eq_of_slot (h : ∀ d, u.slot d = t.slot d) : u.dg = t.dg :=
  Vector.ext fun d hd => h ⟨d, hd⟩

theorem exec_msgClr (hs : s.flt = 0) : exec .msgClr s = .next (respondOk 0 (clearMessage s)) :=
  whenRunning_running ((halted_eq_false_iff s).mpr hs)

theorem exec_dgMov {rd rs1 : SlotNo} (hs : s.flt = 0) (ht : (s.slot rs1).tag ≠ .empty) :
    exec (.dgMov rd rs1) s = .next (respondOk 0 (s.setSlot rd (s.slot rs1))) := by
  obtain he | ⟨alg, ha⟩ := tag_cases (s.slot rs1)
  · exact absurd he ht
  · exact (whenRunning_running ((halted_eq_false_iff s).mpr hs)).trans (withDigest_tag ha)

theorem repeat_msgClr (hs : s.flt = 0) (ht : exec .msgClr s = .next t) (hu : exec .msgClr t = .next u) :
    SameOutcome t u := by
  rw [exec_msgClr hs] at ht
  cases ht
  have hs' : (respondOk 0 (clearMessage s)).flt = 0 := hs
  rw [exec_msgClr hs'] at hu
  cases hu
  exact ⟨rfl, rfl, rfl, rfl, rfl, rfl⟩

/-- The second run finds the message of the first, and so it writes the slot of the first (R76). -/
theorem repeat_hashes {alg : Alg} {r : Word} {rd : SlotNo} (hi : Hashes i alg r rd) (hs : s.flt = 0)
    (ht : exec i s = .next t) (hu : exec i t = .next u) : SameOutcome t u := by
  have hteq := ht
  rw [exec_hashes hi hs] at hteq
  cases hteq
  have hs' : (respondOk 0 (afterHash alg r rd s)).flt = 0 := hs
  have hslot := slot_hashes_eq hi hi hs hs' rfl ht hu
  rw [exec_hashes hi hs'] at hu
  cases hu
  refine ⟨rfl, rfl, dg_eq_of_slot fun d => ?_, rfl, rfl, rfl⟩
  by_cases hd : d = rd
  · rw [hd, hslot]
  · rw [respondOk_slot, afterHash_slot_ne _ _ _ _ _ hd]

/-- A copy leaves its source as it was, also where source and destination are one slot. -/
theorem slot_source_of_move (s : State) (rd rs1 : SlotNo) : (s.setSlot rd (s.slot rs1)).slot rs1 = s.slot rs1 := by
  by_cases h : rs1 = rd
  · rw [h, setSlot_slot_self]
  · exact setSlot_slot_ne s rd rs1 _ h

theorem repeat_dgMov {rd rs1 : SlotNo} (hs : s.flt = 0) (htag : (s.slot rs1).tag ≠ .empty)
    (ht : exec (.dgMov rd rs1) s = .next t) (hu : exec (.dgMov rd rs1) t = .next u) : SameOutcome t u := by
  rw [exec_dgMov hs htag] at ht
  cases ht
  have hsource : (respondOk 0 (s.setSlot rd (s.slot rs1))).slot rs1 = s.slot rs1 := slot_source_of_move s rd rs1
  have hs' : (respondOk 0 (s.setSlot rd (s.slot rs1))).flt = 0 := hs
  have htag' : ((respondOk 0 (s.setSlot rd (s.slot rs1))).slot rs1).tag ≠ .empty := by rwa [hsource]
  rw [exec_dgMov hs' htag', hsource] at hu
  cases hu
  exact ⟨rfl, rfl, Vector.set_set _ rd.isLt, rfl, rfl, rfl⟩

end Repeat

/-- Settles O45: each command finds again what it read the first time, and writes the same once more. -/
theorem repeatingACommandChangesNothing : Obligations.RepeatingACommandChangesNothing := by
  intro i s t u hi hs ht hu
  have hsame : SameOutcome t u := by
    obtain rfl | ⟨rd, rfl⟩ | ⟨rd, r, rfl⟩ | ⟨rd, rfl⟩ | ⟨rd, r, rfl, hr⟩ | ⟨rd, rs1, rfl, htag⟩ := hi
    · exact repeat_msgClr hs ht hu
    · exact repeat_hashes (.md5 rd) hs ht hu
    · exact repeat_hashes (.md5R rd r) hs ht hu
    · exact repeat_hashes (.sha1 rd) hs ht hu
    · exact repeat_hashes (.sha1R rd r hr) hs ht hu
    · exact repeat_dgMov hs htag ht hu
  obtain ⟨hmsg, hlen, hdg, hflt, hfcmd, hresp⟩ := hsame
  exact ⟨hmsg, hlen, hdg, hflt, hfcmd, hresp⟩

end Sys2Proof.Machine

namespace Sys2Proof
open Machine Claims

/-! ## The opcode table is the `fields` column of R138, written as masks and match values -/

section Rows
variable (o : Op)

theorem ctorIdx_lt_fieldUses : o.ctorIdx < fieldUses.length := by cases o <;> decide

/-- Which fields the commands of a row use: the row's line of the `fields` column. -/
def Op.use : FieldUse := fieldUses[o.ctorIdx]'(ctorIdx_lt_fieldUses o)

/-- The mask over a slot field: two bits of a used one must be 0, all four bits of an unused one (R132). -/
def slotMask (used : Bool) : BitVec 4 := if used then 0xC else 0xF

/-- The mask over `imm`: the bits that must be 0 (R132, R135). Which indices `CSR.RD` may name it does not say (R145). -/
def immMask : ImmUse → Word
  | .unused => 0xFFFFFFFF
  | .byte => 0xFFFFFF00
  | .csrIndex => 0
  | .full => 0

/-- The row that the `fields` column asks for. -/
def Op.row : OpRow where
  op := o
  mask := (0xFF : BitVec 8) ++ slotMask o.use.rd ++ slotMask o.use.rs1 ++ slotMask o.use.rs2 ++ (0xFFF : BitVec 12) ++
    immMask o.use.imm
  value := o.use.op ++ (0 : BitVec 4) ++ (0 : BitVec 4) ++ (0 : BitVec 4) ++ (0 : BitVec 12) ++ (0 : BitVec 32)

theorem row_mem_opTable : o.row ∈ opTable := by cases o <;> decide

/-- The opcode table has no rows but those. -/
theorem eq_row_of_mem_opTable : ∀ r ∈ opTable, r = r.op.row := by decide

theorem use_mem_fieldUses : o.use ∈ fieldUses := List.getElem_mem _

theorem exists_use_eq_of_mem_fieldUses {u : FieldUse} (h : u ∈ fieldUses) : ∃ o : Op, o.use = u := by
  have hrows : fieldUses = opTable.map (·.op.use) := by decide
  rw [hrows, List.mem_map] at h
  obtain ⟨r, _, hr⟩ := h
  exact ⟨r.op, hr⟩

/-- No two rows have the same value of `op`. -/
theorem eq_of_use_op_eq {o o' : Op} (h : o.use.op = o'.use.op) : o = o' := by
  have hrows : ∀ r ∈ opTable, ∀ r' ∈ opTable, r.op.use.op = r'.op.use.op → r.op = r'.op := by decide
  exact hrows o.row (row_mem_opTable o) o'.row (row_mem_opTable o') h

end Rows

/-! ### What the masks ask of the fields -/

theorem and_slotMask_eq_zero_iff (used : Bool) (f : BitVec 4) : f &&& slotMask used = 0 ↔ slotFieldOk used f := by
  cases used with
  | false => rw [show slotMask false = BitVec.allOnes 4 from rfl, BitVec.and_allOnes]; exact Iff.rfl
  | true => revert f; simp only [slotMask, slotFieldOk, if_true]; decide

/-- The other direction of `push_and`: the mask of `MSG.PUSH` lets no bit above the byte pass. -/
theorem toNat_lt_of_and_byteMask {imm : Word} (h : imm &&& 0xFFFFFF00 = 0) : imm.toNat < 256 := by
  refine Nat.lt_pow_two_of_testBit (n := 8) _ fun i hi => ?_
  rw [BitVec.testBit_toNat]
  by_cases hw : i < 32
  · have hbit := congrArg (BitVec.getLsbD · i) h
    have hmask : (0xFFFFFF00 : Word).getLsbD i = true := by interval_cases i <;> rfl
    rw [BitVec.getLsbD_and, hmask, Bool.and_true] at hbit
    exact hbit.trans BitVec.getLsbD_zero
  · exact BitVec.getLsbD_of_ge _ _ (by omega)

/-- The ten indices of R61 are two intervals. -/
theorem csrDefined_iff (imm : Word) :
    csrDefined imm = true ↔ imm.toNat ≤ 0x005 ∨ (0x010 ≤ imm.toNat ∧ imm.toNat ≤ 0x013) := by
  simp only [csrDefined, csrIndices, List.contains_iff_mem, List.mem_cons, List.not_mem_nil, ← BitVec.toNat_inj,
    BitVec.reduceToNat, or_false]
  exact ⟨fun h => by omega, fun h => by omega⟩

theorem immOk_iff (u : ImmUse) (imm : Word) :
    imm &&& immMask u = 0 ∧ (u = .csrIndex → csrDefined imm = true) ↔ immOk u imm := by
  cases u with
  | unused =>
    rw [show immMask .unused = BitVec.allOnes 32 from rfl, BitVec.and_allOnes]
    exact and_iff_left nofun
  | byte => exact (and_iff_left nofun).trans ⟨toNat_lt_of_and_byteMask, fun h => push_and (decide_eq_true h)⟩
  | csrIndex => exact (and_iff_right BitVec.and_zero).trans ((forall_prop_of_true rfl).trans (csrDefined_iff imm))
  | full => exact iff_of_true ⟨BitVec.and_zero, nofun⟩ trivial

/-- Step 3 of R134 looks at the index of `CSR.RD` and at nothing else. -/
theorem csrIndexIllegal_eq_false_iff (o : Op) (cw : CmdWord) :
    csrIndexIllegal o cw = false ↔ (o.use.imm = .csrIndex → csrDefined (immField cw) = true) := by
  cases o with
  | csrRd => exact (Iff.of_eq (Bool.not_eq_false' _)).trans ⟨fun h _ => h, fun h => h rfl⟩
  | _ => exact iff_of_true rfl nofun

/-! ## A row and its index check together allow exactly the words with legal fields -/

@[simp] theorem zeroField_append (op : BitVec 8) (rd r1 r2 : BitVec 4) (z : BitVec 12) (im : Word) :
    (op ++ rd ++ r1 ++ r2 ++ z ++ im : CmdWord).extractLsb' 32 12 = z :=
  (BitVec.extractLsb'_append_eq_of_le (by decide)).trans BitVec.extractLsb'_append_eq_right

/-- The fields of `cw` are as a line of the `fields` column asks (R132, R145). -/
structure Allows (u : FieldUse) (cw : CmdWord) : Prop where
  op   : u.op = opField cw
  rd   : slotFieldOk u.rd (rdField cw)
  rs1  : slotFieldOk u.rs1 (rs1Field cw)
  rs2  : slotFieldOk u.rs2 (rs2Field cw)
  zero : cw.extractLsb' 32 12 = 0
  imm  : immOk u.imm (immField cw)

theorem legalFields_iff (op : BitVec 8) (rd r1 r2 : BitVec 4) (z : BitVec 12) (im : Word) :
    LegalFields op rd r1 r2 z im ↔ ∃ o : Op, Allows o.use (wordOf op rd r1 r2 z im) := by
  constructor
  · rintro ⟨u, hu, hop, hrd, h1, h2, hz, him⟩
    obtain ⟨o, rfl⟩ := exists_use_eq_of_mem_fieldUses hu
    exact ⟨o, by constructor <;> simpa [wordOf]⟩
  · rintro ⟨o, hop, hrd, h1, h2, hz, him⟩
    simp only [wordOf, opField_append, rdField_append, rs1Field_append, rs2Field_append, zeroField_append,
      immField_append] at hop hrd h1 h2 hz him
    exact ⟨o.use, use_mem_fieldUses o, hop, hrd, h1, h2, hz, him⟩

section Decoder
variable {o : Op} {cw : CmdWord}

/-- What a row's mask and match value ask of the fields of a word. -/
theorem row_selects_iff (o : Op) (cw : CmdWord) :
    o.row.selects cw = true ↔ opField cw = o.use.op ∧ slotFieldOk o.use.rd (rdField cw) ∧
      slotFieldOk o.use.rs1 (rs1Field cw) ∧ slotFieldOk o.use.rs2 (rs2Field cw) ∧ cw.extractLsb' 32 12 = 0 ∧
      immField cw &&& immMask o.use.imm = 0 := by
  conv_lhs => rw [word_eq_fields cw]
  rw [selects_fields o.row _ _ _ _ _ _ _ _ _ _ _ _ _ rfl rfl, and_slotMask_eq_zero_iff, and_slotMask_eq_zero_iff,
    and_slotMask_eq_zero_iff, show (0xFF : BitVec 8) = BitVec.allOnes 8 from rfl, BitVec.and_allOnes,
    show (0xFFF : BitVec 12) = BitVec.allOnes 12 from rfl, BitVec.and_allOnes]

theorem allows_iff (o : Op) (cw : CmdWord) :
    o.row.selects cw = true ∧ csrIndexIllegal o cw = false ↔ Allows o.use cw := by
  rw [row_selects_iff, csrIndexIllegal_eq_false_iff]
  constructor
  · rintro ⟨⟨hop, hrd, h1, h2, hz, him⟩, hcsr⟩
    exact ⟨hop.symm, hrd, h1, h2, hz, (immOk_iff _ _).mp ⟨him, hcsr⟩⟩
  · rintro ⟨hop, hrd, h1, h2, hz, him⟩
    obtain ⟨him, hcsr⟩ := (immOk_iff _ _).mpr him
    exact ⟨⟨hop.symm, hrd, h1, h2, hz, him⟩, hcsr⟩

theorem opField_of_selects (h : o.row.selects cw = true) : opField cw = o.use.op := ((row_selects_iff o cw).mp h).1

/-- A word selects at most one row, because the rows differ in `op` (R134). -/
theorem op_unique_of_selects {o' : Op} (h : o.row.selects cw = true) (h' : o'.row.selects cw = true) : o = o' :=
  eq_of_use_op_eq ((opField_of_selects h).symm.trans (opField_of_selects h'))

theorem selects_of_findOp (h : findOp cw = some o) : o.row.selects cw = true := by
  obtain ⟨r, hr, rfl⟩ := Option.map_eq_some_iff.mp h
  rw [← eq_row_of_mem_opTable r (List.mem_of_find?_eq_some hr)]
  simpa using List.find?_some hr

theorem findOp_eq_some_iff : findOp cw = some o ↔ o.row.selects cw = true := by
  refine ⟨selects_of_findOp, fun h => ?_⟩
  cases hf : findOp cw with
  | none =>
    have hnone := List.find?_eq_none.mp (Option.map_eq_none_iff.mp hf)
    exact absurd h (hnone o.row (row_mem_opTable o))
  | some o' => rw [op_unique_of_selects (selects_of_findOp hf) h]

/-- The decoding procedure of R134 in one line: the command of the row that allows the word. -/
theorem decode_eq_ok_iff {i : Instr} : decode cw = .ok i ↔ ∃ o : Op, Allows o.use cw ∧ assemble o cw = i := by
  simp only [← allows_iff, ← findOp_eq_some_iff, decode]
  cases findOp cw with
  | none => simp
  | some o => cases hcsr : csrIndexIllegal o cw <;> simp [hcsr]

theorem exists_decode_eq_ok_iff : (∃ i, decode cw = .ok i) ↔ ∃ o : Op, Allows o.use cw := by
  simp only [decode_eq_ok_iff]
  constructor
  · rintro ⟨_, o, ho, _⟩; exact ⟨o, ho⟩
  · rintro ⟨o, ho⟩; exact ⟨_, o, ho, rfl⟩

theorem exists_decode_eq_error (h : ¬ ∃ o : Op, Allows o.use cw) : ∃ e, decode cw = .error e := by
  cases hd : decode cw with
  | ok i => exact absurd (exists_decode_eq_ok_iff.mp ⟨i, hd⟩) h
  | error e => exact ⟨e, rfl⟩

/-! ## From the fields to the command and back -/

/-- A slot field as it comes back from the command: read as a slot if the command uses it, else 0. -/
def keptSlot (used : Bool) (f : BitVec 4) : BitVec 4 := if used then slotField (slotOfField f) else 0

/-- The field `imm` as it comes back from the command. -/
def keptImm (u : ImmUse) (imm : Word) : Word := if u = .unused then 0 else imm

theorem keptSlot_of_ok {used : Bool} {f : BitVec 4} (h : slotFieldOk used f) : keptSlot used f = f := by
  cases used with
  | false => exact h.symm
  | true =>
    have hread : ∀ f : BitVec 4, f.toNat < 4 → slotField (slotOfField f) = f := by decide
    exact hread f h

theorem keptImm_of_ok {u : ImmUse} {imm : Word} (h : immOk u imm) : keptImm u imm = imm := by
  cases u with
  | unused => exact h.symm
  | _ => rfl

/-- The assembled command takes from the word the fields of its row, and nothing else. -/
theorem encode_assemble (o : Op) (cw : CmdWord) :
    encode (assemble o cw) = packC o.use.op (keptSlot o.use.rd (rdField cw)) (keptSlot o.use.rs1 (rs1Field cw))
      (keptSlot o.use.rs2 (rs2Field cw)) (keptImm o.use.imm (immField cw)) := by
  cases o <;> rfl

/-- A row that allows the word takes every field of it. -/
theorem encode_assemble_of_allows (h : Allows o.use cw) : encode (assemble o cw) = cw := by
  obtain ⟨hop, hrd, h1, h2, hz, him⟩ := h
  rw [encode_assemble, keptSlot_of_ok hrd, keptSlot_of_ok h1, keptSlot_of_ok h2, keptImm_of_ok him, hop, packC, ← hz]
  exact (word_eq_fields cw).symm

theorem wf_assemble (h : Allows o.use cw) : (assemble o cw).wf = true := by
  have him := h.imm
  cases o with
  | csrRd => exact (csrDefined_iff _).mpr him
  | msgPush => exact decide_eq_true him
  | _ => rfl

theorem findOp_encode (i : Instr) : Laws.EncodesRow.Statement i := by
  cases i with
  | csrRd csr => exact Laws.EncodesRow.csrRd csr
  | msgClr => exact Laws.EncodesRow.msgClr
  | msgPush imm => exact Laws.EncodesRow.msgPush imm
  | padNblk => exact Laws.EncodesRow.padNblk
  | padByteMd5 p => exact Laws.EncodesRow.padByteMd5 p
  | padByteSha1 p => exact Laws.EncodesRow.padByteSha1 p
  | md5 rd => exact Laws.EncodesRow.md5 rd
  | md5R rd r => exact Laws.EncodesRow.md5R rd r
  | sha1 rd => exact Laws.EncodesRow.sha1 rd
  | sha1R rd r => exact Laws.EncodesRow.sha1R rd r
  | dgMov rd rs1 => exact Laws.EncodesRow.dgMov rd rs1
  | dgWord rs1 j => exact Laws.EncodesRow.dgWord rs1 j
  | dgByte rs1 n => exact Laws.EncodesRow.dgByte rs1 n
  | dgHexc rs1 n => exact Laws.EncodesRow.dgHexc rs1 n
  | dgDiff rs1 rs2 => exact Laws.EncodesRow.dgDiff rs1 rs2

theorem csrIndexIllegal_encode {i : Instr} (h : i.wf = true) : csrIndexIllegal i.op (encode i) = false := by
  cases i with
  | csrRd csr =>
    change (!csrDefined (immField (packC 0x01 0 0 0 csr))) = false
    rw [immField_packC, Bool.not_eq_false']
    exact h
  | _ => rfl

theorem assemble_encode (i : Instr) : assemble i.op (encode i) = i := by
  cases i <;> simp [Instr.op, assemble, encode]

end Decoder

/-- Settles O2: the word selects the command's own row, and each field gives back the operand that was put into it. -/
theorem decodeOfEncode : Obligations.DecodeOfEncode := by
  intro i hi
  rw [decode, findOp_encode i hi]
  simp only [csrIndexIllegal_encode hi, assemble_encode, Bool.false_eq_true, if_false]

/-- Settles O3: the row that allows the word uses every field that may be other than 0. -/
theorem encodeOfDecode : Obligations.EncodeOfDecode := by
  intro cw i hd
  obtain ⟨o, ho, rfl⟩ := decode_eq_ok_iff.mp hd
  exact ⟨wf_assemble ho, encode_assemble_of_allows ho⟩

/-- Settles O4: a row and its index check ask the same of a word as the `fields` column does, and `encode` undoes
`decode`. -/
theorem legalExactlyByFields : Obligations.LegalExactlyByFields := by
  refine ⟨fun op rd rs1 rs2 zero imm => ?_, fun cw cw' i hd hd' => ?_⟩
  · rw [exists_decode_eq_ok_iff, legalFields_iff]
  · rw [← (encodeOfDecode cw i hd).2, (encodeOfDecode cw' i hd').2]

/-- Settles O5: the rows differ in `op`, which every mask covers whole. -/
theorem rowsDoNotOverlap : Obligations.RowsDoNotOverlap := by
  intro cw r hr r' hr' hs hs'
  rw [eq_row_of_mem_opTable r hr] at hs ⊢
  rw [eq_row_of_mem_opTable r' hr'] at hs' ⊢
  rw [op_unique_of_selects hs hs']

/-! ## Words that are no command -/

theorem step_of_decode_eq_error {s : State} {cw : CmdWord} {rest : List HostInput} {e : Illegal} (hs : s.flt = 0)
    (hp : s.pending = .command cw :: rest) (hd : decode cw = .error e) :
    step s = .next (faultedWith 1 cw (presented cw rest s)) := by
  have hrun : ((s.takeInput rest).present cw).halted = false := (halted_eq_false_iff _).mpr hs
  rw [step, runNext, hp]
  simp only [runInput, runCommand, hd]
  exact whenRunning_running hrun

/-- No row has a reserved `op` (R140). -/
theorem not_reservedValue_of_allows {o : Op} {cw : CmdWord} (h : Allows o.use cw) :
    reservedValue (opField cw).toNat = false := by
  have hrows : ∀ u ∈ fieldUses, reservedValue u.op.toNat = false := by decide
  rw [← h.op]
  exact hrows o.use (use_mem_fieldUses o)

/-- Settles O7: illegal fields decode to no command. -/
theorem illegalFieldsFault : Obligations.IllegalFieldsFault := by
  intro s op rd rs1 rs2 zero imm rest hs hp hillegal
  rw [legalFields_iff] at hillegal
  obtain ⟨e, he⟩ := exists_decode_eq_error hillegal
  exact step_of_decode_eq_error hs hp he

/-- Settles O8: a reserved `op` is in no row, and 0 and all ones have one. -/
theorem reservedOpcodesFault : Obligations.ReservedOpcodesFault := by
  refine ⟨by decide +kernel, fun s cw rest hs hp hcw => ?_⟩
  have hreserved : reservedValue (opField cw).toNat = true := by
    obtain h | rfl | rfl := hcw
    · exact h
    · decide
    · decide
  have hnone : ¬ ∃ o : Op, Allows o.use cw := by
    rintro ⟨o, ho⟩
    rw [not_reservedValue_of_allows ho] at hreserved
    exact absurd hreserved (by decide)
  obtain ⟨e, he⟩ := exists_decode_eq_error hnone
  exact step_of_decode_eq_error hs hp he

/-- Settles O1: the words are the encodings by evaluation, and what a well-formed command encodes to decodes to it. -/
theorem workedEncodings : Obligations.WorkedEncodings := by
  refine ⟨fun p hp => ?_, ?_⟩
  · have hcommand : encode p.1 = p.2 ∧ p.1.wf = true := by
      revert p
      decide
    obtain ⟨hencode, hwf⟩ := hcommand
    exact ⟨hencode, hencode ▸ decodeOfEncode p.1 hwf⟩
  · simp only [List.forall_mem_cons]
    exact ⟨⟨.strayBits, by decide⟩, ⟨.strayBits, by decide⟩, ⟨.strayBits, by decide⟩, List.forall_mem_nil _⟩

end Sys2Proof

namespace Sys2Proof
open Machine Claims

/-! ## The sizes of the padding (R175, R177) -/

section PaddingSize
variable {l : Nat}

theorem zeroCount_of_rem_le (h : l % 64 ≤ 55) : zeroCount l = 55 - l % 64 := if_pos h

theorem zeroCount_of_rem_ge (h : 56 ≤ l % 64) : zeroCount l = 119 - l % 64 := if_neg (by omega)

/-- The trailer begins at byte 56 of the block in which the message ends, or of the next one (R175). -/
theorem zeroCount_cases (l : Nat) :
    (l % 64 ≤ 55 ∧ zeroCount l + l % 64 = 55) ∨ (56 ≤ l % 64 ∧ zeroCount l + l % 64 = 119) := by
  obtain h | h := Nat.lt_or_ge (l % 64) 56
  · have := zeroCount_of_rem_le (Nat.le_of_lt_succ h)
    omega
  · have := zeroCount_of_rem_ge h
    omega

theorem zeroCount_le_63 (l : Nat) : zeroCount l ≤ 63 := by
  have := zeroCount_cases l
  omega

theorem zeroCount_reaches (l : Nat) : (l + 1 + zeroCount l) % 64 = 56 := by
  have := zeroCount_cases l
  omega

/-- Two counts that both reach 56 differ by a multiple of 64, and the count of R175 is below 64. -/
theorem zeroCount_least {z : Nat} (h : (l + 1 + z) % 64 = 56) : zeroCount l ≤ z := by
  have hreach := zeroCount_reaches l
  have hbound := zeroCount_le_63 l
  omega

/-- The full blocks of the message, and one more (R175). -/
theorem nblk_of_rem_le (h : l % 64 ≤ 55) : nblk l = l / 64 + 1 := by
  unfold nblk
  omega

/-- The full blocks of the message, and two more, since the marker and the bit length do not fit into one (R175). -/
theorem nblk_of_rem_ge (h : 56 ≤ l % 64) : nblk l = l / 64 + 2 := by
  unfold nblk
  omega

theorem nblk_le_of_len_le (h : l ≤ 2 ^ 32 - 64) : nblk l ≤ 2 ^ 26 := by
  unfold nblk
  omega

end PaddingSize

/-- Settles O20: the count and the remainder add up to 55 or to 119. -/
theorem zeroCountIsLeast : Obligations.ZeroCountIsLeast := fun l =>
  ⟨zeroCount_reaches l, fun _ => zeroCount_least, zeroCount_le_63 l, zeroCount_of_rem_le, zeroCount_of_rem_ge,
    nblk_of_rem_le, nblk_of_rem_ge⟩

/-- Settles O21: the padded length is its four pieces and it is whole blocks, and the zeros are 0 to 63. -/
theorem paddedLength : Obligations.PaddedLength := by
  intro alg msg
  have hpieces := plen_eq msg.length
  have hzeros := zeroCount_le_63 msg.length
  rw [length_pad]
  refine ⟨hpieces, rfl, rfl, by omega, by omega, fun h => ?_, fun h => ?_, fun h => ?_⟩
  · rw [hpieces, zeroCount_of_rem_le (by omega), h]
  · rw [hpieces, zeroCount_of_rem_ge (by omega), h]
  · have hblocks := nblk_le_of_len_le h
    exact ⟨hblocks, Nat.mul_le_mul_left 64 hblocks⟩

/-! ## The pieces of the padded message (R174, R179) -/

section Pieces
variable (alg : Alg) (msg : List Byte)

theorem pad_eq_append :
    pad alg msg = msg ++ 0x80 :: (List.replicate (zeroCount msg.length) 0 ++ trailer alg msg.length) := by
  simp only [pad, List.append_assoc, List.cons_append, List.nil_append]

theorem take_pad : (pad alg msg).take msg.length = msg := by
  rw [pad_eq_append, List.take_left]

theorem getElem?_pad_marker : (pad alg msg)[msg.length]? = some 0x80 := by
  rw [pad_eq_append, List.getElem?_append_right (Nat.le_refl _), Nat.sub_self, List.getElem?_cons_zero]

theorem getElem?_pad_zero {p : Nat} (hlow : msg.length < p) (hhigh : p < plen msg.length - 8) :
    (pad alg msg)[p]? = some 0x00 := by
  have hpieces := plen_eq msg.length
  rw [pad_eq_append, List.getElem?_append_right (Nat.le_of_lt hlow),
    show p - msg.length = p - msg.length - 1 + 1 by omega, List.getElem?_cons_succ,
    List.getElem?_append_left (by rw [List.length_replicate]; omega), List.getElem?_replicate,
    if_pos (by omega)]

end Pieces

theorem toNat_byteOf {n : Nat} (v : BitVec n) (q : Nat) : (byteOf v q).toNat = v.toNat / 2 ^ (8 * q) % 256 := by
  rw [byteOf, BitVec.extractLsb'_toNat, Nat.shiftRight_eq_div_pow]

/-- The 8 bytes, the least significant first, make up the value again (R17). -/
theorem leValue_leBytes64 (v : BitVec 64) : leValue (leBytes64 v) = v.toNat := by
  have := v.isLt
  simp only [leBytes64, leValue, toNat_byteOf]
  omega

theorem reverse_beBytes64 (v : BitVec 64) : (beBytes64 v).reverse = leBytes64 v := rfl

/-- Settles O22: the padded message piece by piece, the last being the bytes of the bit length. -/
theorem paddedMessageContract : Obligations.PaddedMessageContract := by
  intro alg msg hfits
  have hpieces := plen_eq msg.length
  refine ⟨?_, ?_, take_pad alg msg, getElem?_pad_marker alg msg, fun p hlow hhigh => ?_, ?_⟩
  · rw [length_pad, plen, Nat.mul_mod_right]
  · rw [length_pad]
    omega
  · rw [length_pad] at hhigh
    exact getElem?_pad_zero alg msg hlow hhigh
  · cases alg with
    | md5 => rw [drop_pad, trailer, leValue_leBytes64, toNat_bitlen hfits]
    | sha1 => rw [drop_pad, trailer, reverse_beBytes64, leValue_leBytes64, toNat_bitlen hfits]

/-! ## The Padder's byte by its position (R178) -/

section PadByte
variable {alg : Alg} {m : Memory} {l p : Nat}

theorem padByte_message (h : p < l) : padByte alg m l p = m.byteAt p := if_pos h

theorem padByte_marker (h : p = l) : padByte alg m l p = 0x80 := by
  rw [padByte, if_neg (by omega), if_pos h]

theorem padByte_zero (hlow : l < p) (hhigh : p < plen l - 8) : padByte alg m l p = 0x00 := by
  rw [padByte, if_neg (by omega), if_neg (by omega), if_pos hhigh]

/-- The last 8 bytes lie above the message and its marker. -/
theorem padByte_trailer_md5 (h : plen l - 8 ≤ p) :
    padByte .md5 m l p = (bitlen l >>> (8 * (p - (plen l - 8)))).setWidth 8 := by
  have hpieces := plen_eq l
  rw [padByte, if_neg (by omega), if_neg (by omega), if_neg (by omega)]

theorem padByte_trailer_sha1 (h : plen l - 8 ≤ p) :
    padByte .sha1 m l p = (bitlen l >>> (8 * (7 - (p - (plen l - 8))))).setWidth 8 := by
  have hpieces := plen_eq l
  rw [padByte, if_neg (by omega), if_neg (by omega), if_neg (by omega)]

end PadByte

/-- Inside CORE the bit length always fits, so its bytes are those of `8 * LEN` (R10, R176). -/
theorem toNat_bitlen_len_byte (len : Word) (n : Nat) :
    ((bitlen len.toNat >>> n).setWidth 8).toNat = 8 * len.toNat / 2 ^ n % 256 := by
  rw [BitVec.toNat_setWidth, BitVec.toNat_ushiftRight, Nat.shiftRight_eq_div_pow, bitlen_len]

theorem length_state_message (s : State) : s.message.length = s.len.toNat := length_bytes _ _

theorem length_pad_message (alg : Alg) (s : State) : (pad alg s.message).length = plen s.len.toNat := by
  rw [length_pad, length_state_message]

/-- Up to the padded length, the Padder on the fly makes the padded message. -/
theorem getElem?_pad_message (alg : Alg) (s : State) {p : Nat} (hp : p < plen s.len.toNat) :
    (pad alg s.message)[p]? = some (padByte alg s.msg s.len.toNat p) := by
  have hin : p < (pad alg s.message).length := by rwa [length_pad_message]
  rw [List.getElem?_eq_getElem hin, ← List.getD_eq_getElem _ 0 hin, State.message, getD_pad alg s.msg hp]

/-- Settles O23: the byte is that of the sequence, and each case of the rule is a branch of `padByte`. -/
theorem padByteIsByteOfPaddedMessage : Obligations.PadByteIsByteOfPaddedMessage := by
  intro s alg p hp l q b
  refine ⟨getElem?_pad_message alg s hp, padByte_message, padByte_marker, padByte_zero, ?_, ?_⟩
  · rintro h rfl
    exact (congrArg BitVec.toNat (padByte_trailer_md5 h)).trans (toNat_bitlen_len_byte s.len _)
  · rintro h rfl
    exact (congrArg BitVec.toNat (padByte_trailer_sha1 h)).trans (toNat_bitlen_len_byte s.len _)

/-! ## The commands of the message and the Padder in a running CORE -/

section Commands
variable {s : State} {imm p : Word} {b : Byte} {alg : Alg}

/-- `whenRunning_running` with the fault register for the halted condition (R325). -/
theorem whenRunning_of_flt {body : Host.Outcome State Fault Refusal} (hs : s.flt = 0) : whenRunning s body = body :=
  whenRunning_running ((halted_eq_false_iff s).mpr hs)

theorem pushOperandLegal_iff : pushOperandLegal imm = true ↔ imm.toNat < 256 := decide_eq_true_iff

theorem exec_msgPush (hs : s.flt = 0) (hlegal : imm.toNat < 256) (hl : s.len < s.cap) :
    exec (.msgPush imm) s = .next (respondOk 0 (appendByte (immByte imm) s)) :=
  (whenRunning_of_flt hs).trans <| (if_pos (pushOperandLegal_iff.mpr hlegal)).trans <|
    if_neg (BitVec.not_le.mpr hl)

theorem exec_msgPush_full (hs : s.flt = 0) (hlegal : imm.toNat < 256) (hl : s.cap ≤ s.len) :
    exec (.msgPush imm) s = .next (raiseFault .msgFull s) :=
  (whenRunning_of_flt hs).trans <| (if_pos (pushOperandLegal_iff.mpr hlegal)).trans <| if_pos hl

theorem exec_msgPush_illegal (hs : s.flt = 0) (hwide : 256 ≤ imm.toNat) :
    exec (.msgPush imm) s = .next (raiseFault .illegal s) :=
  (whenRunning_of_flt hs).trans <| if_neg (mt pushOperandLegal_iff.mp (Nat.not_lt.mpr hwide))

theorem exec_padNblk (hs : s.flt = 0) : exec .padNblk s = .next (respondOk (zextNat (nblk s.len.toNat)) s) :=
  whenRunning_of_flt hs

/-- `PAD.NBLK` loses nothing of the block count to the 32 bits of its response (R181). -/
theorem toNat_zextNat_nblk (len : Word) : (zextNat (nblk len.toNat)).toNat = nblk len.toNat := by
  have := nblk_len_lt len
  rw [zextNat, BitVec.toNat_ofNat, Nat.mod_eq_of_lt (by omega)]

theorem exec_padByteMd5 (hs : s.flt = 0) : exec (.padByteMd5 p) s = padByteResponse .md5 p s :=
  whenRunning_of_flt hs

theorem exec_padByteSha1 (hs : s.flt = 0) : exec (.padByteSha1 p) s = padByteResponse .sha1 p s :=
  whenRunning_of_flt hs

/-- An index that the padded message has is answered with its byte (R182, R183). -/
theorem padByteResponse_inside (h : (pad alg s.message)[p.toNat]? = some b) :
    padByteResponse alg p s = .next (respondOk (zextByte b) s) := by
  obtain ⟨hp, _⟩ := List.getElem?_eq_some_iff.mp h
  rw [length_pad_message] at hp
  rw [getElem?_pad_message alg s hp, Option.some_inj] at h
  rw [← h]
  exact withIndex_inside hp

theorem padByteResponse_outside (alg : Alg) (h : plen s.len.toNat ≤ p.toNat) :
    padByteResponse alg p s = .next (raiseFault .index s) :=
  withIndex_outside h

end Commands

/-- Settles O25: the count that a 32-bit value holds is that of the padded message of either algorithm. -/
theorem padNblkAnswersBlockCount : Obligations.PadNblkAnswersBlockCount := by
  refine ⟨decodeOfEncode .padNblk rfl, fun s hs => ⟨_, exec_padNblk hs, ?_, fun alg => ?_⟩⟩
  · exact toNat_zextNat_nblk s.len
  · rw [toNat_zextNat_nblk, length_pad_message, plen]

/-- Settles O26: each command is the Padder's response for its algorithm. -/
theorem padByteAnswersPaddedByte : Obligations.PadByteAnswersPaddedByte := by
  refine ⟨fun p => ⟨decodeOfEncode (.padByteMd5 p) rfl, decodeOfEncode (.padByteSha1 p) rfl⟩, fun s p hs => ?_⟩
  rw [exec_padByteMd5 hs, exec_padByteSha1 hs]
  exact ⟨fun _ => padByteResponse_inside, fun _ => padByteResponse_inside,
    fun h => ⟨padByteResponse_outside .md5 h, padByteResponse_outside .sha1 h⟩⟩

/-- Settles O17: no byte below a `LEN` of 0 is left in the message. -/
theorem msgClrEmptiesMessage : Obligations.MsgClrEmptiesMessage :=
  ⟨decodeOfEncode .msgClr rfl, fun _ hs => ⟨_, exec_msgClr hs, rfl, rfl⟩⟩

/-! ## Appending a byte to the message (R173) -/

theorem bytes_succ (m : Memory) (l : Nat) : m.bytes (l + 1) = m.bytes l ++ [m.byteAt l] := by
  simp only [Memory.bytes, List.range_succ, List.map_append, List.map_singleton]

/-- What is written at or above `l` is not among the first `l` bytes. -/
theorem bytes_write {a l : Nat} (m : Memory) (v : Byte) (h : l ≤ a) : (m.write a v).bytes l = m.bytes l :=
  bytes_congr fun b hb => byteAt_write_ne m a b v (by omega)

theorem message_appendByte {s : State} (hl : s.len < s.cap) (b : Byte) :
    (appendByte b s).message = s.message ++ [b] := by
  rw [State.message, appendByte_len, toNat_len_add_one hl, appendByte_msg, bytes_succ,
    bytes_write s.msg b (Nat.le_refl _), byteAt_write_self, State.message]

theorem immByte_eq_setWidth (imm : Word) : immByte imm = imm.setWidth 8 := by
  rw [immByte, BitVec.setWidth_eq_extractLsb' (by decide)]

/-- The only row with the `op` of `MSG.PUSH` wants a byte (R141). -/
theorem decode_wide_push {imm : Word} (h : 256 ≤ imm.toNat) : ∃ e, decode (word 0x11 0 0 0 imm) = .error e := by
  refine exists_decode_eq_error ?_
  rintro ⟨o, hallows⟩
  have hop : o.use.op = Op.msgPush.use.op := hallows.op.trans (opField_append ..)
  obtain rfl := eq_of_use_op_eq hop
  have hbyte : (immField (word 0x11 0 0 0 imm)).toNat < 256 := hallows.imm
  rw [word, wordOf, immField_append] at hbyte
  omega

/-- Settles O18: the memory's law of a read after a write, the capacity that keeps `LEN + 1` from wrapping, and the two
checks. -/
theorem msgPushAppends : Obligations.MsgPushAppends := by
  refine ⟨fun s imm hs hlegal hl => ?_, fun s imm hs hlegal hfull => ?_, fun imm hlegal => ?_, fun imm hwide => ?_⟩
  · rw [← immByte_eq_setWidth]
    exact ⟨_, exec_msgPush hs hlegal hl, rfl, toNat_len_add_one hl, read_write_self _ _ _,
      fun a ha => read_write_ne _ _ _ _ ha, message_appendByte hl _⟩
  · exact exec_msgPush_full hs hlegal (BitVec.le_of_eq hfull.symm)
  · exact decodeOfEncode (.msgPush imm) (pushOperandLegal_iff.mpr hlegal)
  · exact ⟨decode_wide_push hwide, fun s hs => exec_msgPush_illegal hs hwide⟩

end Sys2Proof

namespace Sys2Proof.Machine
open Claims

/-! ## The steps of MD5 repeat with the period 64 (R209) -/

theorem md5Step_add_64 (k : Nat) (x : Md5Regs) (m : Vector Word 16) : md5Step (k + 64) x m = md5Step k x m := by
  simp only [md5Step, Nat.add_mod_right]

theorem md5Steps_succ (m : Vector Word 16) (x : Md5Regs) (r : Nat) :
    md5Steps m x (r + 1) = md5Step r (md5Steps m x r) m := rfl

theorem md5Steps_64_add (m : Vector Word 16) (x : Md5Regs) (r : Nat) :
    md5Steps m x (64 + r) = md5Steps m (md5Steps m x 64) r := by
  induction r with
  | zero => rfl
  | succ r ih =>
    rw [← Nat.add_assoc, md5Steps_succ m x (64 + r), ih, Nat.add_comm 64 r, md5Step_add_64, ← md5Steps_succ]

/-- Settles O28: the step's counter is used only modulo 64, and an induction on the further steps. -/
theorem md5StepsWrap : Obligations.Md5StepsWrap := ⟨md5Step_add_64, md5Steps_64_add⟩

/-! ## At round count 0 each block doubles the accumulator (R212, R249) -/

section ZeroRounds

theorem timesPow2_zero (x : Word) : timesPow2 0 x = x := by
  rw [timesPow2, Nat.pow_zero, Nat.one_mul, BitVec.ofNat_toNat, BitVec.setWidth_eq]

theorem timesPow2_succ (n : Nat) (x : Word) : timesPow2 (n + 1) x = timesPow2 n x + timesPow2 n x := by
  rw [timesPow2, timesPow2, ← BitVec.ofNat_add, ← Nat.two_mul, ← Nat.mul_assoc, Nat.pow_succ']

/-- Modulo `2^32` nothing is left of a word after 32 doublings. -/
theorem timesPow2_eq_zero {n : Nat} (h : 32 ≤ n) (x : Word) : timesPow2 n x = 0 := by
  have hdvd : 2 ^ 32 ∣ 2 ^ n * x.toNat := Nat.dvd_mul_right_of_dvd (Nat.pow_dvd_pow 2 h) _
  apply BitVec.eq_of_toNat_eq
  rw [timesPow2, BitVec.toNat_ofNat, Nat.mod_eq_zero_of_dvd hdvd]
  rfl

/-- With no step run, the fold adds the accumulator to itself. -/
theorem md5Block_zero (h : Md5Regs) (m : Vector Word 16) : md5Block h m 0 = h.add h := rfl

theorem sha1Block_zero (h : Sha1Regs) (w : Vector Word 80) : sha1Block h w 0 = h.add h := rfl

variable (msg : List Byte) (n : Nat)

theorem md5Blocks_zero_rounds : md5Blocks msg 0 n =
    ⟨timesPow2 n md5Init.a, timesPow2 n md5Init.b, timesPow2 n md5Init.c, timesPow2 n md5Init.d⟩ := by
  induction n with
  | zero => simp only [md5Blocks, timesPow2_zero]
  | succ n ih => simp only [md5Blocks, md5Block_zero, ih, Md5Regs.add, timesPow2_succ]

theorem sha1Blocks_zero_rounds : sha1Blocks msg 0 n =
    ⟨timesPow2 n sha1Init.a, timesPow2 n sha1Init.b, timesPow2 n sha1Init.c, timesPow2 n sha1Init.d,
      timesPow2 n sha1Init.e⟩ := by
  induction n with
  | zero => simp only [sha1Blocks, timesPow2_zero]
  | succ n ih => simp only [sha1Blocks, sha1Block_zero, ih, Sha1Regs.add, timesPow2_succ]

end ZeroRounds

/-- Settles O29: `NB` doublings of the initial values, and a word doubled 32 times is 0. -/
theorem zeroRoundsDoubleTheAccumulator : Obligations.ZeroRoundsDoubleTheAccumulator := by
  refine ⟨md5Block_zero, sha1Block_zero, fun msg => ?_⟩
  have hmd5 := md5Blocks_zero_rounds msg (nblk msg.length)
  have hsha1 := sha1Blocks_zero_rounds msg (nblk msg.length)
  refine ⟨hmd5, hsha1, fun hblocks => ?_⟩
  simp only [timesPow2_eq_zero hblocks] at hmd5 hsha1
  exact ⟨hmd5, hsha1⟩

/-! ## Which words of a block the first 16 steps read (R213, R250) -/

section FewSteps
variable {m m' : Vector Word 16} {r : Nat}

/-- In the first round group of MD5 the scheduler takes the words in their order (R205). -/
theorem md5Widx_of_lt_16 {k : Nat} (hk : k < 16) : md5Widx k = k := by
  rw [md5Widx, Nat.div_eq_of_lt hk]
  rfl

/-- Step `k` of the first 16 reads word `k` of the block and no other. -/
theorem md5Step_congr {k : Nat} (hk : k < 16) (h : m[k] = m'[k]) (x : Md5Regs) :
    md5Step k x m = md5Step k x m' := by
  have hword : blockBufferWord m k = blockBufferWord m' k := by
    rw [blockBufferWord, blockBufferWord, Vector.getElem?_eq_getElem hk, Vector.getElem?_eq_getElem hk, h]
  simp only [md5Step, Nat.mod_eq_of_lt (show k < 64 by omega), md5Widx_of_lt_16 hk, hword]

theorem md5Steps_congr (hr : r ≤ 16) (h : ∀ (j : Nat) (hj : j < r), m[j] = m'[j]) (x : Md5Regs) :
    md5Steps m x r = md5Steps m' x r := by
  induction r with
  | zero => rfl
  | succ r ih =>
    rw [md5Steps_succ, md5Steps_succ, ih (by omega) fun j hj => h j (by omega),
      md5Step_congr (by omega) (h r (by omega))]

/-- The steps of SHA-1 before step `r` read the schedule words below `r` and no other. -/
theorem sha1Steps_congr {w w' : Vector Word 80} (hr : r ≤ 80) (h : ∀ (j : Nat) (hj : j < r), w[j] = w'[j])
    (x : Sha1Regs) : sha1Steps w x r hr = sha1Steps w' x r hr := by
  induction r with
  | zero => rfl
  | succ r ih =>
    have hword : w[r] = w'[r] := h r (by omega)
    rw [sha1Steps, sha1Steps, ih (by omega) fun j hj => h j (by omega)]
    simp only [sha1Step, Fin.getElem_fin, hword]

/-- The expansion puts new words before the words it has, and changes none of these. -/
theorem suffix_sha1Extend (n : Nat) (ws : List Word) : ws <:+ sha1Extend n ws := by
  induction n generalizing ws with
  | zero => exact List.suffix_rfl
  | succ n ih => exact (List.suffix_cons _ ws).trans (ih _)

/-- The schedule begins with the block's words (R243). -/
theorem getElem_sha1Schedule_of_lt_16 (m : Vector Word 16) {i : Nat} (hi : i < 16) : (sha1Schedule m)[i] = m[i] := by
  have hprefix : m.toList <+: (sha1Extend 64 m.toList.reverse).reverse := by
    rw [← List.reverse_suffix, List.reverse_reverse]
    exact suffix_sha1Extend 64 m.toList.reverse
  have hlen : i < m.toList.length := by rwa [Vector.length_toList]
  rw [sha1Schedule, Vector.getElem_ofFn, List.getD_eq_getElem _ _ (hlen.trans_le hprefix.length_le),
    ← hprefix.getElem hlen, Vector.getElem_toList]

end FewSteps

/-- Settles O30: step by step, the word read is one of the first `R` of the block, in SHA-1 through the schedule. -/
theorem fewStepsReadFewWords : Obligations.FewStepsReadFewWords := by
  refine fun r hr m m' h => ⟨md5Steps_congr hr h, sha1Steps_congr (by omega) fun j hj => ?_⟩
  rw [getElem_sha1Schedule_of_lt_16 m (by omega), getElem_sha1Schedule_of_lt_16 m' (by omega), h j hj]

/-! ## The commands `MD5` and `MD5.R` (R214 to R216) -/

/-- DONE writes the slot, answers `(OK, 0)` and touches nothing else but the engine registers (R56). -/
theorem hashWrote_afterHash (alg : Alg) (r : Word) (rd : SlotNo) (s : State) :
    HashWrote rd ((s.hashJob alg r).slotOf ((s.hashJob alg r).result s.eng)) s (respondOk 0 (afterHash alg r rd s)) :=
  ⟨rfl, rfl⟩

/-- A command that hashes with MD5 completes in a running CORE and writes the pure digest of the message. -/
theorem hashes_md5_writes {i : Instr} {r : Word} {rd : SlotNo} (hi : Hashes i .md5 r rd) {s : State} (hs : s.flt = 0) :
    ∃ t, exec i s = .next t ∧ HashWrote rd ⟨.md5, (md5Rounds s.message r.toNat).slotWords⟩ s t := by
  have hslot : (s.hashJob .md5 r).slotOf ((s.hashJob .md5 r).result s.eng) =
      ⟨.md5, (md5Rounds s.message r.toNat).slotWords⟩ := slotOf_result_md5 rfl s.eng
  exact ⟨_, exec_hashes hi hs, hslot ▸ hashWrote_afterHash .md5 r rd s⟩

/-- Settles O33: the command is decoded from its own encoding, and it hashes with 64 steps a block. -/
theorem md5WritesStandardDigest : Obligations.Md5WritesStandardDigest :=
  ⟨fun rd => decodeOfEncode (.md5 rd) rfl, fun _ rd hs => hashes_md5_writes (.md5 rd) hs⟩

/-- Settles O34: as for `MD5`, with the round count of the command; with 64 it ends in the state that `MD5` ends in. -/
theorem md5RWritesRoundDigest : Obligations.Md5RWritesRoundDigest := by
  refine ⟨fun rd r => decodeOfEncode (.md5R rd r) rfl, fun s rd r hs => ⟨hashes_md5_writes (.md5R rd r) hs, ?_⟩⟩
  rw [exec_hashes (.md5R rd 64) hs, exec_hashes (.md5 rd) hs]

end Sys2Proof.Machine

namespace Sys2Proof.Machine
open Claims

/-! ## The recurrence of the SHA-1 schedule (R244) -/

/-- The newest word of an expansion follows from the expansion that is shorter by one. -/
theorem sha1Extend_succ (n : Nat) (ws : List Word) :
    sha1Extend (n + 1) ws = sha1NextWord (sha1Extend n ws) :: sha1Extend n ws := by
  induction n generalizing ws with
  | zero => rfl
  | succ n ih => exact ih (sha1NextWord ws :: ws)

theorem length_sha1Extend (n : Nat) (ws : List Word) : (sha1Extend n ws).length = n + ws.length := by
  induction n with
  | zero => rw [sha1Extend, Nat.zero_add]
  | succ n ih => rw [sha1Extend_succ, List.length_cons, ih, Nat.add_right_comm]

/-- Words of an expansion stand `q` places deeper after `q` further words. -/
theorem getD_sha1Extend_add (q n k : Nat) (ws : List Word) :
    (sha1Extend (n + q) ws).getD (k + q) 0 = (sha1Extend n ws).getD k 0 := by
  induction q with
  | zero => rfl
  | succ q ih => rw [← Nat.add_assoc, sha1Extend_succ, ← Nat.add_assoc, List.getD_cons_succ, ih]

/-- Once `n` words have been computed, schedule word `i` stands `k` places behind the newest, word `n + 15`. -/
theorem getElem_sha1Schedule (m : Vector Word 16) {i n k : Nat} (hi : i < 80) (hn : n ≤ 64) (hk : i + k = n + 15) :
    (sha1Schedule m)[i] = (sha1Extend n m.toList.reverse).getD k 0 := by
  have hlen : (sha1Extend 64 m.toList.reverse).length = 80 := by
    rw [length_sha1Extend, List.length_reverse, Vector.length_toList]
  have hplace : 80 - 1 - i = k + (64 - n) := by omega
  calc (sha1Schedule m)[i]
    _ = (sha1Extend 64 m.toList.reverse).reverse.getD i 0 := by rw [sha1Schedule, Vector.getElem_ofFn]
    _ = (sha1Extend (n + (64 - n)) m.toList.reverse).getD (k + (64 - n)) 0 := by
      rw [List.getD_reverse i (hi.trans_eq hlen.symm), hlen, hplace, Nat.add_sub_cancel' hn]
    _ = (sha1Extend n m.toList.reverse).getD k 0 := getD_sha1Extend_add _ _ _ _

theorem sha1Schedule_recurrence (m : Vector Word 16) {i : Nat} (hi : 16 ≤ i) (h : i < 80) : (sha1Schedule m)[i] =
    rotl32 ((sha1Schedule m)[i - 3] ^^^ (sha1Schedule m)[i - 8] ^^^ (sha1Schedule m)[i - 14] ^^^
      (sha1Schedule m)[i - 16]) 1 := by
  have hword (d : Nat) (hd : 1 ≤ d ∧ d ≤ 16) :
      (sha1Schedule m)[i - d] = (sha1Extend (i - 16) m.toList.reverse).getD (d - 1) 0 :=
    getElem_sha1Schedule m (by omega) (by omega) (by omega)
  rw [hword 3 (by decide), hword 8 (by decide), hword 14 (by decide), hword 16 (by decide),
    getElem_sha1Schedule m (n := i - 16 + 1) (k := 0) h (by omega) (by omega), sha1Extend_succ,
    List.getD_cons_zero, sha1NextWord]

/-- Settles O31: the block's words are the oldest of the expansion, and each later word was computed from those before
it. -/
theorem scheduleFollowsRecurrence : Obligations.ScheduleFollowsRecurrence :=
  fun m => ⟨fun _ hi => getElem_sha1Schedule_of_lt_16 m hi, fun _ hi h => sha1Schedule_recurrence m hi h⟩

/-! ## The commands `SHA1` and `SHA1.R` (R252 to R255) -/

/-- A command that hashes with SHA-1 completes in a running CORE and writes the pure digest of the message. -/
theorem hashes_sha1_writes {i : Instr} {r : Word} {rd : SlotNo} (hi : Hashes i .sha1 r rd) {n : Fin 81}
    (hr : r.toNat = n.val) {s : State} (hs : s.flt = 0) :
    ∃ t, exec i s = .next t ∧ HashWrote rd ⟨.sha1, (sha1Rounds s.message n).slotWords⟩ s t := by
  have hslot : (s.hashJob .sha1 r).slotOf ((s.hashJob .sha1 r).result s.eng) =
      ⟨.sha1, (sha1Rounds s.message n).slotWords⟩ := slotOf_result_sha1 rfl hr s.eng
  exact ⟨_, exec_hashes hi hs, hslot ▸ hashWrote_afterHash .sha1 r rd s⟩

/-- A round count without a meaning is a fault, before anything is written (R254). -/
theorem exec_sha1R_rounds {s : State} {r : Word} (hs : s.flt = 0) (hr : 80 < r.toNat) (rd : SlotNo) :
    exec (.sha1R rd r) s = .next (raiseFault .rounds s) :=
  (whenRunning_of_flt hs).trans <| if_pos hr

/-- Settles O35: the command is decoded from its own encoding, and it hashes with 80 steps a block. -/
theorem sha1WritesStandardDigest : Obligations.Sha1WritesStandardDigest :=
  ⟨fun rd => decodeOfEncode (.sha1 rd) rfl, fun _ rd hs => hashes_sha1_writes (.sha1 rd) rfl hs⟩

/-- Settles O36: as for `SHA1`, with the round count of the command where it has a meaning; with 80 it ends in the state
that `SHA1` ends in. -/
theorem sha1RWritesRoundDigest : Obligations.Sha1RWritesRoundDigest := by
  refine ⟨fun rd r => decodeOfEncode (.sha1R rd r) rfl, fun s rd r hs => ⟨fun hr => ?_, fun hr => ?_, ?_⟩⟩
  · exact hashes_sha1_writes (.sha1R rd r hr) rfl hs
  · exact exec_sha1R_rounds hs hr rd
  · rw [exec_hashes (.sha1R rd 80 (by decide)) hs, exec_hashes (.sha1 rd) hs]

end Sys2Proof.Machine

namespace Sys2Proof.Machine
open Claims

/-! ## What a step does to the slots (R284) -/

section SlotFrame
variable {i : Instr} {s t : State}

theorem Hashes.eq_md5 {r : Word} {rd : SlotNo} (h : Hashes i .md5 r rd) : i = .md5 rd ∨ ∃ r, i = .md5R rd r := by
  cases h with
  | md5 _ => exact .inl rfl
  | md5R _ r => exact .inr ⟨r, rfl⟩

theorem Hashes.eq_sha1 {r : Word} {rd : SlotNo} (h : Hashes i .sha1 r rd) : i = .sha1 rd ∨ ∃ r, i = .sha1R rd r := by
  cases h with
  | sha1 _ => exact .inl rfl
  | sha1R _ r _ => exact .inr ⟨r, rfl⟩

theorem slotOf_tag (j : HashJob) (e : Engine) : (j.slotOf e).tag = j.alg.tag := by
  cases hj : j.alg <;> simp only [HashJob.slotOf, hj, Alg.tag]

/-- How a command that completed without a fault wrote the slot `d`: as a hash command or as a copy. -/
inductive WroteSlot (i : Instr) (s : State) (d : SlotNo) : Slot → Prop where
  | hashed (j : HashJob) (e : Engine) (r : Word) (hi : Hashes i j.alg r d) : WroteSlot i s d (j.slotOf e)
  | moved (rs1 : SlotNo) (hi : i = .dgMov d rs1) (ht : (s.slot rs1).tag ≠ .empty) : WroteSlot i s d (s.slot rs1)

/-- What a command does to a slot: nothing, or, in a CORE that runs before and after, one write of all of it. -/
theorem slot_effect (h : Effect i s t) (d : SlotNo) :
    t.slot d = s.slot d ∨ (s.flt = 0 ∧ t.flt = 0 ∧ WroteSlot i s d (t.slot d)) := by
  cases h with
  | refused _ => exact .inl rfl
  | faulted _ _ _ => exact .inl rfl
  | answered _ _ => exact .inl rfl
  | cleared _ _ => exact .inl rfl
  | appended _ _ _ _ => exact .inl rfl
  | hashed hs alg r rd hi =>
    by_cases hd : d = rd
    · subst hd
      have hflt : s.flt = 0 := (halted_eq_false_iff s).mp hs
      rw [respondOk_slot, afterHash_slot_self]
      exact .inr ⟨hflt, hflt, .hashed (s.hashJob alg r) _ r hi⟩
    · exact .inl (afterHash_slot_ne alg r rd d s hd)
  | moved hs rd rs1 hi ht =>
    by_cases hd : d = rd
    · subst hd
      have hflt : s.flt = 0 := (halted_eq_false_iff s).mp hs
      rw [respondOk_slot, setSlot_slot_self]
      exact .inr ⟨hflt, hflt, .moved rs1 hi ht⟩
    · exact .inl (setSlot_slot_ne s rd d _ hd)

theorem illegalWord_slot (h : illegalWord s = .next t) (d : SlotNo) : t.slot d = s.slot d := by
  obtain ⟨_, rfl⟩ | ⟨_, rfl⟩ := illegalWord_next h
  · exact refuseHalted_slot s d
  · exact raiseFault_slot .illegal s d

end SlotFrame

/-- Settles O44, by what a step can do: of all of it only reset, a hash command and `DG.MOV` change a slot. -/
theorem slotsChangeOnlyAsAWhole : Obligations.SlotsChangeOnlyAsAWhole := by
  intro s t d hstep hne
  obtain ⟨_, rfl⟩ | ⟨x, rest, hp, hx, rfl⟩ | ⟨cw, rest, i, hp, hd, hexec⟩ | ⟨cw, rest, e, _, _, hill⟩ :=
    step_cases hstep
  · exact absurd rfl hne
  · obtain rfl | ⟨cw, rfl⟩ := hx
    · exact .inl ⟨rest, hp⟩
    · exact .inr (.inl ⟨cw, rest, hp⟩)
  · obtain hsame | ⟨hs, ht, hwrote⟩ := slot_effect (exec_effect hexec) d
    · exact absurd hsame hne
    · refine .inr (.inr ⟨cw, rest, i, hp, hd, hs, ht, ?_⟩)
      generalize t.slot d = x at hwrote
      cases hwrote with
      | hashed j e r hi =>
        have htag := slotOf_tag j e
        cases hj : j.alg with
        | md5 =>
          rw [hj] at hi htag
          exact .inl ⟨hi.eq_md5, htag, slotOf_md5Fifth j e htag⟩
        | sha1 =>
          rw [hj] at hi htag
          exact .inr (.inl ⟨hi.eq_sha1, htag⟩)
      | moved rs1 hi hsource => exact .inr (.inr ⟨rs1, hi, hsource, rfl⟩)
  · exact absurd (illegalWord_slot hill d) hne

/-! ## Copying a slot (R279) -/

/-- Settles O38: the copy is one write of the slot `rd`, which reads the same when source and destination are one
slot. -/
theorem dgMovCopiesWholeSlot : Obligations.DgMovCopiesWholeSlot := by
  refine ⟨fun rd rs1 => decodeOfEncode (.dgMov rd rs1) rfl, fun s rd rs1 hs => ⟨fun ht => ?_, fun he => ?_⟩⟩
  · refine ⟨_, exec_dgMov hs ht, rfl, setSlot_slot_self s rd _, fun d hd => setSlot_slot_ne s rd d _ hd, ?_⟩
    rintro rfl
    exact Vector.set_getElem_self _
  · exact (whenRunning_of_flt hs).trans (withDigest_empty he)

/-! ## Commands that read one entry of a digest (R280 to R282) -/

section ReadEntry

/-- The rule that `DG.WORD`, `DG.BYTE` and `DG.HEXC` share: the digest of the slot `d` has `bound` entries, of which the
entry `n` is answered. -/
def readEntry (d : SlotNo) (n : Word) (bound : Alg → Nat) (entry : Alg → Word) (s : State) :
    Host.Outcome State Fault Refusal :=
  whenRunning s (withDigest s d fun alg => withIndex s n.toNat (bound alg) (done (entry alg) s))

variable {s : State} {d : SlotNo} {n : Word} {bound : Alg → Nat} {entry : Alg → Word}

theorem exec_dgWord (d : SlotNo) (j : Word) (s : State) : exec (.dgWord d j) s =
    readEntry d j wordCount (fun alg => (digestWords alg (s.slot d).w).getD j.toNat 0) s := rfl

theorem exec_dgByte (d : SlotNo) (n : Word) (s : State) : exec (.dgByte d n) s =
    readEntry d n (4 * wordCount ·) (fun alg => zextByte ((ser alg (s.slot d).w).getD n.toNat 0)) s := rfl

theorem exec_dgHexc (d : SlotNo) (n : Word) (s : State) : exec (.dgHexc d n) s =
    readEntry d n (8 * wordCount ·) (fun alg => zextByte ((hexForm alg (s.slot d).w).getD n.toNat 0)) s := rfl

theorem readEntry_inside {alg : Alg} (hs : s.flt = 0) (ht : (s.slot d).tag = alg.tag) (hn : n.toNat < bound alg) :
    readEntry d n bound entry s = .next (answered (entry alg) s) :=
  (whenRunning_of_flt hs).trans <| (withDigest_tag ht).trans <| withIndex_inside hn

theorem readEntry_empty (hs : s.flt = 0) (he : (s.slot d).tag = .empty) :
    readEntry d n bound entry s = .next (faultedWith 4 s.cmd s) :=
  (whenRunning_of_flt hs).trans <| withDigest_empty he

theorem readEntry_outside (hs : s.flt = 0)
    (h : ((s.slot d).tag = .md5 ∧ bound .md5 ≤ n.toNat) ∨ ((s.slot d).tag = .sha1 ∧ bound .sha1 ≤ n.toNat)) :
    readEntry d n bound entry s = .next (faultedWith 6 s.cmd s) := by
  obtain ⟨alg, ht, hn⟩ : ∃ alg : Alg, (s.slot d).tag = alg.tag ∧ bound alg ≤ n.toNat :=
    h.elim (fun h => ⟨.md5, h⟩) (fun h => ⟨.sha1, h⟩)
  exact (whenRunning_of_flt hs).trans <| (withDigest_tag ht).trans <| withIndex_outside hn

end ReadEntry

/-! ### The words of a digest (R270) -/

theorem wordCount_le_five (alg : Alg) : wordCount alg ≤ 5 := by cases alg <;> decide

@[simp] theorem length_digestWords (alg : Alg) (w : Vector Word 5) : (digestWords alg w).length = wordCount alg := by
  rw [digestWords, List.length_take, Vector.length_toList, Nat.min_eq_left (wordCount_le_five alg)]

theorem getElem?_digestWords (alg : Alg) (w : Vector Word 5) {j : Nat} (hj : j < wordCount alg) :
    (digestWords alg w)[j]? = some (w[j]'(hj.trans_le (wordCount_le_five alg))) := by
  rw [digestWords, List.getElem?_take_of_lt hj, Vector.getElem?_toList, Vector.getElem?_eq_getElem]

/-- Settles O39: the entries are the digest words. -/
theorem dgWordAnswersWord : Obligations.DgWordAnswersWord := by
  refine ⟨fun d j => decodeOfEncode (.dgWord d j) rfl, fun s d j hs => ?_⟩
  have hword (alg : Alg) (ht : (s.slot d).tag = alg.tag) (hj : j.toNat < wordCount alg) :
      exec (.dgWord d j) s =
        .next (answered ((s.slot d).w[j.toNat]'(hj.trans_le (wordCount_le_five alg))) s) := by
    rw [exec_dgWord, readEntry_inside hs ht hj, List.getD_eq_getElem?_getD, getElem?_digestWords alg _ hj,
      Option.getD_some]
  exact ⟨fun hj ht => hword .md5 ht hj, fun hj ht => hword .sha1 ht hj, readEntry_empty hs,
    fun h => readEntry_outside hs h⟩

/-! ### The bytes of a digest (R272) -/

/-- In a list put together from pieces of the length `k`, entry `n` stands in piece `n div k` at `n mod k`. -/
theorem getElem?_flatMap_of_length {α β : Type} {f : α → List β} {k : Nat} (hf : ∀ a, (f a).length = k) (hk : 0 < k)
    (l : List α) (n : Nat) : (l.flatMap f)[n]? = l[n / k]?.bind fun a => (f a)[n % k]? := by
  induction l generalizing n with
  | nil => rfl
  | cons a l ih =>
    rw [List.flatMap_cons]
    by_cases hn : n < k
    · rw [List.getElem?_append_left (by rwa [hf]), Nat.div_eq_of_lt hn, Nat.mod_eq_of_lt hn]
      rfl
    · have hkn : k ≤ n := Nat.not_lt.mp hn
      rw [List.getElem?_append_right (by rwa [hf]), hf, ih, Nat.div_eq_sub_div hk hkn, Nat.mod_eq_sub_mod hkn,
        List.getElem?_cons_succ]

theorem length_wordBytes (alg : Alg) (w : Word) : (wordBytes alg w).length = 4 := by cases alg <;> rfl

theorem length_ser (alg : Alg) (w : Vector Word 5) : (ser alg w).length = 4 * wordCount alg := by
  rw [ser, List.length_flatMap, List.map_congr_left fun a _ => length_wordBytes alg a, List.map_const',
    List.sum_replicate, length_digestWords, smul_eq_mul, Nat.mul_comm]

theorem getElem?_ser (alg : Alg) (w : Vector Word 5) {n : Nat} (hn : n / 4 < wordCount alg) : (ser alg w)[n]? =
    (wordBytes alg (w[n / 4]'(hn.trans_le (wordCount_le_five alg))))[n % 4]? := by
  rw [ser, getElem?_flatMap_of_length (length_wordBytes alg) (by decide), getElem?_digestWords alg w hn,
    Option.bind_some]

theorem getElem?_leBytes32 (w : Word) {q : Nat} (hq : q < 4) : (leBytes32 w)[q]? = some (byteOf w q) := by
  interval_cases q <;> rfl

theorem getElem?_beBytes32 (w : Word) {q : Nat} (hq : q < 4) : (beBytes32 w)[q]? = some (byteOf w (3 - q)) := by
  interval_cases q <;> rfl

theorem getElem?_ser_md5 (w : Vector Word 5) {n : Nat} (hn : n < 16) :
    (ser .md5 w)[n]? = some (byteOf w[n / 4] (n % 4)) := by
  rw [getElem?_ser .md5 w (Nat.div_lt_of_lt_mul hn), wordBytes, getElem?_leBytes32 _ (Nat.mod_lt n (by decide))]

theorem getElem?_ser_sha1 (w : Vector Word 5) {n : Nat} (hn : n < 20) :
    (ser .sha1 w)[n]? = some (byteOf w[n / 4] (3 - n % 4)) := by
  rw [getElem?_ser .sha1 w (Nat.div_lt_of_lt_mul hn), wordBytes, getElem?_beBytes32 _ (Nat.mod_lt n (by decide))]

theorem toNat_zextByte (b : Byte) : (zextByte b).toNat = b.toNat := BitVec.toNat_setWidth_of_le (by decide)

theorem zextByte_byteOf (w : Word) (q : Nat) : zextByte (byteOf w q) = (w >>> (8 * q)) &&& 0xFF := by
  apply BitVec.eq_of_toNat_eq
  rw [toNat_zextByte, toNat_byteOf, BitVec.toNat_and, BitVec.toNat_ushiftRight, Nat.shiftRight_eq_div_pow]
  exact (Nat.and_two_pow_sub_one_eq_mod _ 8).symm

/-- Settles O40: the entries are the bytes of the serialization, and each of them is a shift of its word. -/
theorem dgByteAnswersSerializedByte : Obligations.DgByteAnswersSerializedByte := by
  refine ⟨fun d n => decodeOfEncode (.dgByte d n) rfl, fun s d n hs => ?_⟩
  have hbyte {alg : Alg} (ht : (s.slot d).tag = alg.tag) (hn : n.toNat < 4 * wordCount alg) {b : Byte}
      (hb : (ser alg (s.slot d).w)[n.toNat]? = some b) :
      exec (.dgByte d n) s = .next (answered (zextByte b) s) := by
    rw [exec_dgByte, readEntry_inside hs ht hn, List.getD_eq_getElem?_getD, hb, Option.getD_some]
  refine ⟨fun hn ht => ?_, fun hn ht => ?_, readEntry_empty hs, fun h => readEntry_outside hs h⟩
  · rw [hbyte (alg := .md5) ht hn (getElem?_ser_md5 _ hn), zextByte_byteOf]
  · rw [hbyte (alg := .sha1) ht hn (getElem?_ser_sha1 _ hn), zextByte_byteOf]

/-! ### The characters of the hex form (R273, R274) -/

/-- Where byte `n div 2` of the serialization is `b`, character `n` of the hex form is the digit of one of its
nibbles. -/
theorem getElem?_hexForm {alg : Alg} {w : Vector Word 5} {n : Nat} {b : Byte} (h : (ser alg w)[n / 2]? = some b) :
    (hexForm alg w)[n]? = some (hexDigit (if n % 2 = 0 then b.toNat / 16 else b.toNat % 16)) := by
  rw [hexForm, getElem?_flatMap_of_length (k := 2) (fun _ => rfl) (by decide), h, Option.bind_some, hexOfByte]
  obtain he | ho := Nat.mod_two_eq_zero_or_one n
  · rw [he]; rfl
  · rw [ho]; rfl

theorem lowercaseDigit_range {v : Nat} (hv : v < 16) :
    (0x30 ≤ lowercaseDigit v ∧ lowercaseDigit v ≤ 0x39) ∨ (0x61 ≤ lowercaseDigit v ∧ lowercaseDigit v ≤ 0x66) := by
  unfold lowercaseDigit
  split <;> omega

theorem toNat_hexDigit {v : Nat} (hv : v < 16) : (hexDigit v).toNat = lowercaseDigit v := by
  have hrange := lowercaseDigit_range hv
  exact Nat.mod_eq_of_lt (show lowercaseDigit v < 256 by omega)

/-- Settles O41: the entries are the characters of the hex form, two for each byte of the serialization. -/
theorem dgHexcAnswersHexCharacter : Obligations.DgHexcAnswersHexCharacter := by
  refine ⟨fun d n => decodeOfEncode (.dgHexc d n) rfl, fun s d n hs =>
    ⟨fun alg b ht hb => ?_, fun alg _ => length_ser alg _, readEntry_empty hs, fun h => readEntry_outside hs h⟩⟩
  obtain ⟨hbyte, _⟩ := List.getElem?_eq_some_iff.mp hb
  rw [length_ser] at hbyte
  have hn : n.toNat < 8 * wordCount alg := by omega
  have hnibble : (if n.toNat % 2 = 0 then b.toNat / 16 else b.toNat % 16) < 16 := by split <;> omega
  refine ⟨_, (exec_dgHexc d n s).trans (readEntry_inside hs ht hn), ?_⟩
  rw [List.getD_eq_getElem?_getD, getElem?_hexForm hb, Option.getD_some, toNat_zextByte, toNat_hexDigit hnibble]
  exact ⟨rfl, lowercaseDigit_range hnibble⟩

/-! ## The Hamming distance (R275 to R277) -/

theorem popcount32_eq_zero_iff (x : Word) : popcount32 x = 0 ↔ x = 0 := by
  rw [popcount32, List.countP_eq_zero]
  refine ⟨fun h => BitVec.eq_of_getLsbD_eq fun i hi => ?_, ?_⟩
  · simpa using h i (List.mem_range.mpr hi)
  · rintro rfl
    simp

/-- Each of the 32 bits is 1 in the word or in its complement. -/
theorem popcount32_add_not (x : Word) : popcount32 x + popcount32 (~~~x) = 32 := by
  have hnot : popcount32 (~~~x) = (List.range 32).countP fun i => decide ¬x.getLsbD i = true :=
    List.countP_congr fun i hi => by simp [List.mem_range.mp hi]
  rw [hnot, popcount32, ← List.length_eq_countP_add_countP, List.length_range]

section Words
variable {xs ys : List Word}

/-- The sum of R276 over two lists of words. -/
def wordsDiff (xs ys : List Word) : Nat := (List.zipWith (fun a b => popcount32 (a ^^^ b)) xs ys).sum

theorem wordsDiff_cons (x y : Word) (xs ys : List Word) :
    wordsDiff (x :: xs) (y :: ys) = popcount32 (x ^^^ y) + wordsDiff xs ys := by
  rw [wordsDiff, List.zipWith_cons_cons, List.sum_cons, wordsDiff]

theorem hammingDiff_eq (alg : Alg) (x y : Vector Word 5) :
    hammingDiff alg x y = wordsDiff (digestWords alg x) (digestWords alg y) := rfl

theorem wordsDiff_comm (xs ys : List Word) : wordsDiff xs ys = wordsDiff ys xs := by
  rw [wordsDiff, List.zipWith_comm]
  simp only [BitVec.xor_comm, wordsDiff]

theorem wordsDiff_eq_zero_iff (h : xs.length = ys.length) : wordsDiff xs ys = 0 ↔ xs = ys := by
  induction xs generalizing ys with
  | nil => cases ys with
    | nil => simp [wordsDiff]
    | cons _ _ => cases h
  | cons x xs ih => cases ys with
    | nil => cases h
    | cons y ys =>
      rw [wordsDiff_cons, Nat.add_eq_zero_iff, popcount32_eq_zero_iff, xor_eq_zero_iff, ih (Nat.succ.inj h),
        List.cons.injEq]

/-- A bit in which two words agree is one in which the one and the complement of the other differ. -/
theorem wordsDiff_add_compl (h : xs.length = ys.length) :
    wordsDiff xs ys + wordsDiff xs (ys.map (~~~·)) = 32 * xs.length := by
  induction xs generalizing ys with
  | nil => rfl
  | cons x xs ih => cases ys with
    | nil => cases h
    | cons y ys =>
      have hword : popcount32 (x ^^^ y) + popcount32 (x ^^^ ~~~y) = 32 := by
        rw [← BitVec.not_xor_right, popcount32_add_not]
      have hwords := ih (Nat.succ.inj h)
      rw [List.map_cons, wordsDiff_cons, wordsDiff_cons, List.length_cons]
      omega

end Words

section Digests
variable (alg : Alg) (x y : Vector Word 5)

theorem hammingDiff_self : hammingDiff alg x x = 0 := (wordsDiff_eq_zero_iff rfl).mpr rfl

theorem hammingDiff_comm : hammingDiff alg x y = hammingDiff alg y x := wordsDiff_comm _ _

theorem hammingDiff_eq_zero_iff : hammingDiff alg x y = 0 ↔ digestWords alg x = digestWords alg y :=
  wordsDiff_eq_zero_iff (by rw [length_digestWords, length_digestWords])

/-- The distance to a digest and the distance to its complement make up all bits. -/
theorem hammingDiff_add_compl :
    hammingDiff alg x y + wordsDiff (digestWords alg x) ((digestWords alg y).map (~~~·)) = 32 * wordCount alg := by
  rw [hammingDiff_eq, wordsDiff_add_compl (by rw [length_digestWords, length_digestWords]), length_digestWords]

theorem hammingDiff_le : hammingDiff alg x y ≤ 32 * wordCount alg :=
  Nat.le.intro (hammingDiff_add_compl alg x y)

theorem hammingDiff_eq_max_iff :
    hammingDiff alg x y = 32 * wordCount alg ↔ digestWords alg x = (digestWords alg y).map (~~~·) := by
  have hsum := hammingDiff_add_compl alg x y
  rw [← wordsDiff_eq_zero_iff (by rw [List.length_map, length_digestWords, length_digestWords])]
  omega

/-- A slot's words, one by one (R70). -/
theorem toList_slotWords (w : Vector Word 5) : w.toList = [w[0], w[1], w[2], w[3], w[4]] := by
  obtain ⟨⟨words⟩, hlen⟩ := w
  match words, hlen with
  | [_, _, _, _, _], _ => rfl

/-- The sum over the words that the algorithm has, among the five of the slot. -/
theorem hammingDiff_eq_sum : hammingDiff alg x y =
    ∑ j : Fin 5, if j.val < wordCount alg then popcount32 (x[j] ^^^ y[j]) else 0 := by
  rw [hammingDiff, digestWords, digestWords, toList_slotWords x, toList_slotWords y, Fin.sum_univ_five]
  cases alg <;> simp [wordCount, Nat.add_assoc]

theorem toNat_zextNat_hammingDiff : (zextNat (hammingDiff alg x y)).toNat = hammingDiff alg x y := by
  have hle := hammingDiff_le alg x y
  have hwc := wordCount_le_five alg
  exact Nat.mod_eq_of_lt (by omega)

end Digests

/-- Settles O43: the distance is 0 for equal digests only, and with the distance to the complement it makes up all
bits. -/
theorem hammingDistanceProperties : Obligations.HammingDistanceProperties := fun alg x y =>
  ⟨hammingDiff_self alg x, hammingDiff_comm alg x y, hammingDiff_le alg x y, hammingDiff_eq_zero_iff alg x y,
    hammingDiff_eq_max_iff alg x y⟩

/-! ### `DG.DIFF` (R283) -/

section Diff
variable {s : State} {d d' : SlotNo}

theorem exec_dgDiff_same {alg : Alg} (hs : s.flt = 0) (h : (s.slot d).tag = alg.tag) (h' : (s.slot d').tag = alg.tag) :
    exec (.dgDiff d d') s = .next (answered (zextNat (hammingDiff alg (s.slot d).w (s.slot d').w)) s) :=
  (whenRunning_of_flt hs).trans <| (withDigest_tag h).trans <| (withDigest_tag h').trans <| if_pos rfl

theorem algTag_ne_empty (alg : Alg) : alg.tag ≠ .empty := by cases alg <;> decide

theorem exec_dgDiff_empty (hs : s.flt = 0) (h : (s.slot d).tag = .empty ∨ (s.slot d').tag = .empty) :
    exec (.dgDiff d d') s = .next (faultedWith 4 s.cmd s) := by
  refine (whenRunning_of_flt hs).trans ?_
  obtain he | ⟨alg, ha⟩ := tag_cases (s.slot d)
  · exact withDigest_empty he
  · have he' : (s.slot d').tag = .empty := h.resolve_left (ha ▸ algTag_ne_empty alg)
    exact (withDigest_tag ha).trans (withDigest_empty he')

theorem exec_dgDiff_differ (hs : s.flt = 0) (h : (s.slot d).tag ≠ .empty) (h' : (s.slot d').tag ≠ .empty)
    (hne : (s.slot d).tag ≠ (s.slot d').tag) : exec (.dgDiff d d') s = .next (faultedWith 5 s.cmd s) := by
  obtain ⟨alg, ha⟩ := (tag_cases (s.slot d)).resolve_left h
  obtain ⟨alg', ha'⟩ := (tag_cases (s.slot d')).resolve_left h'
  have halg : alg ≠ alg' := fun e => hne (by rw [ha, ha', e])
  exact (whenRunning_of_flt hs).trans <| (withDigest_tag ha).trans <| (withDigest_tag ha').trans <| if_neg halg

/-- The checks and the distance are the same for swapped operands. -/
theorem exec_dgDiff_comm (hs : s.flt = 0) (d d' : SlotNo) : exec (.dgDiff d d') s = exec (.dgDiff d' d) s := by
  by_cases he : (s.slot d).tag = .empty ∨ (s.slot d').tag = .empty
  · rw [exec_dgDiff_empty hs he, exec_dgDiff_empty hs he.symm]
  · obtain ⟨h, h'⟩ := not_or.mp he
    by_cases heq : (s.slot d).tag = (s.slot d').tag
    · obtain ⟨alg, ha⟩ := (tag_cases (s.slot d)).resolve_left h
      have ha' : (s.slot d').tag = alg.tag := heq ▸ ha
      rw [exec_dgDiff_same hs ha ha', exec_dgDiff_same hs ha' ha, hammingDiff_comm]
    · rw [exec_dgDiff_differ hs h h' heq, exec_dgDiff_differ hs h' h (Ne.symm heq)]

end Diff

/-- Settles O42: the distance by R276, which 32 bits hold, and the checks in their order. -/
theorem dgDiffAnswersHammingDistance : Obligations.DgDiffAnswersHammingDistance := by
  refine ⟨fun d d' => decodeOfEncode (.dgDiff d d') rfl, fun s d d' hs =>
    ⟨fun alg ha ha' => ⟨_, exec_dgDiff_same hs ha ha', ?_⟩, exec_dgDiff_empty hs, exec_dgDiff_differ hs,
      exec_dgDiff_comm hs d d'⟩⟩
  rw [toNat_zextNat_hammingDiff]
  refine ⟨hammingDiff_eq_sum alg _ _, hammingDiff_le alg _ _, ?_⟩
  rintro rfl
  rw [hammingDiff_self]
  rfl

end Sys2Proof.Machine

namespace Sys2Proof.Machine
open Claims

/-! ## A halted CORE and a command word (R301, R325) -/

section Presented
variable {s : State} {cw : CmdWord} {rest : List HostInput}

/-- `whenRunning_halted` with the fault register for the halted condition (R325). -/
theorem whenRunning_of_flt_ne {body : Host.Outcome State Fault Refusal} (hs : s.flt ≠ 0) :
    whenRunning s body = .next (refuseHalted s) :=
  whenRunning_halted ((halted_eq_true_iff s).mpr hs)

/-- Every command but `CSR.RD` begins with the halted check (R320). -/
theorem exec_of_flt_ne {i : Instr} (hs : s.flt ≠ 0) (hi : ∀ csr, i ≠ .csrRd csr) :
    exec i s = .next (refuseHalted s) := by
  cases i with
  | csrRd csr => exact absurd rfl (hi csr)
  | _ => exact whenRunning_of_flt_ne hs

theorem step_of_command (hp : s.pending = .command cw :: rest) : step s = runCommand cw (s.takeInput rest) := by
  rw [step, runNext, hp]
  rfl

theorem step_of_decode_eq_ok {i : Instr} (hp : s.pending = .command cw :: rest) (hd : decode cw = .ok i) :
    step s = exec i (presented cw rest s) := by
  rw [step_of_command hp, runCommand, hd]
  rfl

/-- While halted, a word that is no `CSR.RD` is refused, whether or not it is another command. -/
theorem step_refused_of_flt_ne (hs : s.flt ≠ 0) (hp : s.pending = .command cw :: rest)
    (hcw : ¬ ∃ csr, decode cw = .ok (.csrRd csr)) : step s = .next (refuseHalted (presented cw rest s)) := by
  have hs' : (presented cw rest s).flt ≠ 0 := hs
  cases hd : decode cw with
  | ok i =>
    rw [step_of_decode_eq_ok hp hd]
    exact exec_of_flt_ne hs' fun csr hi => hcw ⟨csr, hi ▸ hd⟩
  | error e =>
    rw [step_of_command hp, runCommand, hd]
    exact whenRunning_of_flt_ne hs'

end Presented

/-! ## The control registers (R300) -/

section Csr
variable {s : State} {csr v : Word}

theorem code_eq_tagNumber (t : Tag) : t.code = tagNumber t := by cases t <;> rfl

/-- Each line of R300's table is what `CSR[csr]` answers. -/
theorem csrValue_of_mem_csrTable (h : (csr, v) ∈ csrTable s) : csrValue s csr = some v := by
  have hlow : s.fcmd.setWidth 32 = s.fcmd.extractLsb' 0 32 := BitVec.setWidth_eq_extractLsb' (by decide)
  have hhigh : (s.fcmd >>> 32).setWidth 32 = s.fcmd.extractLsb' 32 32 := rfl
  have htable : ∀ p ∈ csrTable s, csrValue s p.1 = some p.2 := by
    simp only [csrTable, List.forall_mem_cons, ← code_eq_tagNumber, hlow, hhigh]
    exact ⟨rfl, rfl, rfl, rfl, rfl, rfl, rfl, rfl, rfl, rfl, List.forall_mem_nil _⟩
  exact htable (csr, v) h

/-- The table has one line for each defined index (R61). -/
theorem csrDefined_iff_mem_csrTable (s : State) (csr : Word) :
    csrDefined csr = true ↔ csr ∈ (csrTable s).map (·.1) :=
  List.contains_iff_mem

theorem csrValue_eq_none (s : State) (h : ¬ csrDefined csr = true) : csrValue s csr = none := by
  rw [csrDefined_iff] at h
  unfold csrValue
  split
  case h_11 => rfl
  all_goals omega

theorem exec_csrRd (hv : csrValue s csr = some v) : exec (.csrRd csr) s = .next (respondOk v s) := by
  simp only [exec, execCsrRd, hv, done]

theorem exec_csrRd_undefined (hv : csrValue s csr = none) : exec (.csrRd csr) s = illegalWord s := by
  simp only [exec, execCsrRd, hv]

/-- A word with the `op` of a row and an `imm` that the row does not allow is no command: no other row has its `op`. -/
theorem decode_eq_error_of_not_immOk (o : Op) {rd rs1 rs2 : SlotNo} {imm : Word} (h : ¬ immOk o.use.imm imm) :
    ∃ e, decode (word o.use.op rd rs1 rs2 imm) = .error e := by
  refine exists_decode_eq_error ?_
  rintro ⟨o', hallows⟩
  obtain rfl : o' = o := eq_of_use_op_eq (hallows.op.trans (opField_append ..))
  have himm := hallows.imm
  rw [word, wordOf, immField_append] at himm
  exact h himm

theorem decode_undefined_csr (h : ¬ csrDefined csr = true) : ∃ e, decode (word 0x01 0 0 0 csr) = .error e :=
  decode_eq_error_of_not_immOk .csrRd (mt (csrDefined_iff csr).mpr h)

end Csr

/-- Settles O10: a legal `CSR.RD` makes no halted check, and every other word meets one. -/
theorem haltedCoreAnswersOnlyCsrRead : Obligations.HaltedCoreAnswersOnlyCsrRead := by
  refine fun s cw rest hs hp => ⟨fun csr v hd hmem => ?_, step_refused_of_flt_ne hs hp⟩
  have hv : csrValue (presented cw rest s) csr = some v := csrValue_of_mem_csrTable hmem
  exact (step_of_decode_eq_ok hp hd).trans (exec_csrRd hv)

/-- Settles O16: the table has a line for exactly the defined indices, and the answer to any other index is the one to an
illegal word. -/
theorem csrReadAnswersRegister : Obligations.CsrReadAnswersRegister := by
  refine ⟨fun s csr v hmem => ?_, fun s csr hnot => ?_⟩
  · have hdef : csrDefined csr = true :=
      (csrDefined_iff_mem_csrTable s csr).mpr (List.mem_map_of_mem (f := (·.1)) hmem)
    exact ⟨decodeOfEncode (.csrRd csr) hdef, exec_csrRd (csrValue_of_mem_csrTable hmem)⟩
  · have hundef : ¬ csrDefined csr = true := mt (csrDefined_iff_mem_csrTable s csr).mp hnot
    rw [exec_csrRd_undefined (csrValue_eq_none s hundef)]
    exact ⟨decode_undefined_csr hundef, whenRunning_of_flt, whenRunning_of_flt_ne⟩

end Sys2Proof.Machine

namespace Sys2Proof.Machine
open Claims

/-! ## What each fault code says of the command that raised it (R311) -/

section Causes
variable {i : Instr} {s : State}

/-- A well-formed command raises no `E_ILLEGAL`: the two checks that do are those of its operand. -/
theorem wf_eq_false_of_raises_illegal (h : Raises i s .illegal) : i.wf = false := by
  cases h with
  | undefinedCsr csr hv =>
    refine Bool.eq_false_iff.mpr fun hdef => ?_
    obtain ⟨⟨_, v⟩, hmem, rfl⟩ := List.mem_map.mp ((csrDefined_iff_mem_csrTable s csr).mp hdef)
    rw [csrValue_of_mem_csrTable hmem] at hv
    cases hv
  | pushIllegal imm hillegal => exact hillegal

theorem eq_msgPush_of_raises_msgFull (h : Raises i s .msgFull) : ∃ imm, i = .msgPush imm := by
  cases h with
  | msgFull imm _ => exact ⟨imm, rfl⟩

theorem eq_sha1R_of_raises_rounds (h : Raises i s .rounds) : ∃ rd r, i = .sha1R rd r ∧ 80 < r.toNat := by
  cases h with
  | rounds rd r hr => exact ⟨rd, r, rfl, hr⟩

theorem reads_slot_of_raises_empty (h : Raises i s .empty) :
    ∃ d d' n, i ∈ [.dgMov d d', .dgWord d n, .dgByte d n, .dgHexc d n, .dgDiff d d'] := by
  cases h with
  | movEmpty rd d _ => exact ⟨rd, d, 0, by simp⟩
  | wordEmpty d j _ => exact ⟨d, 0, j, by simp⟩
  | byteEmpty d n _ => exact ⟨d, 0, n, by simp⟩
  | hexcEmpty d n _ => exact ⟨d, 0, n, by simp⟩
  | diffEmpty1 d d' _ => exact ⟨d, d', 0, by simp⟩
  | diffEmpty2 d d' _ => exact ⟨d, d', 0, by simp⟩

theorem eq_dgDiff_of_raises_alg (h : Raises i s .alg) : ∃ d d', i = .dgDiff d d' := by
  cases h with
  | diffAlg d d' _ _ _ _ _ => exact ⟨d, d', rfl⟩

theorem takes_index_of_raises_index (h : Raises i s .index) :
    ∃ d n, i ∈ [.padByteMd5 n, .padByteSha1 n, .dgWord d n, .dgByte d n, .dgHexc d n] := by
  cases h with
  | padIndexMd5 p _ => exact ⟨0, p, by simp⟩
  | padIndexSha1 p _ => exact ⟨0, p, by simp⟩
  | wordIndex d j _ _ _ => exact ⟨d, j, by simp⟩
  | byteIndex d n _ _ _ => exact ⟨d, n, by simp⟩
  | hexcIndex d n _ _ _ => exact ⟨d, n, by simp⟩

end Causes

/-! ### The operand `imm` of a command is `cw[31:0]` (R131, R135) -/

section ImmOperand
variable {cw : CmdWord} {i : Instr} {op : BitVec 8} {rd rs1 rs2 : BitVec 4} {imm : Word}

theorem imm_eq_of_decode (hd : decode cw = .ok i) (hi : encode i = packC op rd rs1 rs2 imm) :
    imm = cw.setWidth 32 := by
  have hcw : packC op rd rs1 rs2 imm = cw := hi.symm.trans (encodeOfDecode cw i hd).2
  rw [← hcw, BitVec.setWidth_eq_extractLsb' (by decide)]
  exact (immField_packC ..).symm

theorem index_eq_of_decode {d : SlotNo} {n : Word} (hd : decode cw = .ok i)
    (hi : i ∈ [.padByteMd5 n, .padByteSha1 n, .dgWord d n, .dgByte d n, .dgHexc d n]) : n = cw.setWidth 32 := by
  simp only [List.mem_cons, List.not_mem_nil, or_false] at hi
  obtain rfl | rfl | rfl | rfl | rfl := hi
  all_goals exact imm_eq_of_decode hd rfl

end ImmOperand

/-! ### Fault entry records an explained fault -/

section Recorded
variable {i : Instr} {s t : State}

theorem faultExplained_of_error (h : ∃ e, decode s.cmd = .error e) : FaultExplained (raiseFault .illegal s) :=
  .inr (.inl ⟨rfl, h⟩)

theorem faultExplained_of_raises {f : FaultCode} (hd : decode s.cmd = .ok i) (h : Raises i s f) :
    FaultExplained (raiseFault f s) := by
  cases f with
  | illegal =>
    have hwf := (encodeOfDecode s.cmd i hd).1
    rw [wf_eq_false_of_raises_illegal h] at hwf
    cases hwf
  | msgFull =>
    obtain ⟨imm, rfl⟩ := eq_msgPush_of_raises_msgFull h
    exact .inr (.inr (.inl ⟨rfl, imm, hd⟩))
  | rounds =>
    obtain ⟨rd, r, rfl, hr⟩ := eq_sha1R_of_raises_rounds h
    exact .inr (.inr (.inr (.inl ⟨rfl, rd, r, hd, imm_eq_of_decode hd rfl, hr⟩)))
  | empty =>
    obtain ⟨d, d', n, hi⟩ := reads_slot_of_raises_empty h
    have hmem := List.mem_map_of_mem (f := Except.ok (ε := Illegal)) hi
    exact .inr (.inr (.inr (.inr (.inl ⟨rfl, d, d', n, hd ▸ hmem⟩))))
  | alg =>
    obtain ⟨d, d', rfl⟩ := eq_dgDiff_of_raises_alg h
    exact .inr (.inr (.inr (.inr (.inr (.inl ⟨rfl, d, d', hd⟩)))))
  | index =>
    obtain ⟨d, n, hi⟩ := takes_index_of_raises_index h
    have hmem := List.mem_map_of_mem (f := Except.ok (ε := Illegal)) hi
    exact .inr (.inr (.inr (.inr (.inr (.inr ⟨rfl, d, n, index_eq_of_decode hd hi, hd ▸ hmem⟩)))))

/-- The explanation speaks of `FLT` and `FCMD` alone. -/
theorem faultExplained_congr (hflt : t.flt = s.flt) (hfcmd : t.fcmd = s.fcmd) (h : FaultExplained s) :
    FaultExplained t := by
  unfold FaultExplained
  rw [hflt, hfcmd]
  exact h

end Recorded

/-! ## The three outcomes of a command word (R310) -/

/-- What is left behind by the command word that is being executed in the state `s`. -/
inductive CommandOutcome (s : State) : State → Prop where
  | succeeded {t : State} (v : Word) (hresp : t.resp = some ⟨0, v⟩) (hflt : t.flt = s.flt) (hfcmd : t.fcmd = s.fcmd)
      (hpending : t.pending = s.pending) : CommandOutcome s t
  | faulted (f : FaultCode) (hs : s.flt = 0) (hf : FaultExplained (raiseFault f s)) : CommandOutcome s (raiseFault f s)
  | refused (hs : s.flt ≠ 0) : CommandOutcome s (refuseHalted s)

section Outcomes
variable {i : Instr} {s t : State}

theorem outcome_of_effect (hd : decode s.cmd = .ok i) (h : Effect i s t) : CommandOutcome s t := by
  cases h with
  | refused hs => exact .refused ((halted_eq_true_iff s).mp hs)
  | faulted hs f hf => exact .faulted f ((halted_eq_false_iff s).mp hs) (faultExplained_of_raises hd hf)
  | answered v _ => exact .succeeded v rfl rfl rfl rfl
  | cleared _ _ => exact .succeeded 0 rfl rfl rfl rfl
  | appended _ _ _ _ => exact .succeeded 0 rfl rfl rfl rfl
  | hashed _ _ _ _ _ => exact .succeeded 0 rfl rfl rfl rfl
  | moved _ _ _ _ _ => exact .succeeded 0 rfl rfl rfl rfl

theorem outcome_of_illegalWord (hd : ∃ e, decode s.cmd = .error e) (h : illegalWord s = .next t) :
    CommandOutcome s t := by
  obtain ⟨hs, rfl⟩ | ⟨hs, rfl⟩ := illegalWord_next h
  · exact .refused ((halted_eq_true_iff s).mp hs)
  · exact .faulted .illegal ((halted_eq_false_iff s).mp hs) (faultExplained_of_error hd)

/-- Every command word has an outcome, whether or not it decodes. -/
theorem runCommand_outcome (cw : CmdWord) (s : State) :
    ∃ t, runCommand cw s = .next t ∧ CommandOutcome (s.present cw) t := by
  unfold runCommand
  cases hd : decode cw with
  | ok i =>
    obtain ⟨t, ht⟩ := exec_total i (s.present cw)
    exact ⟨t, ht, outcome_of_effect hd (exec_effect ht)⟩
  | error e =>
    obtain ⟨t, ht⟩ : ∃ t, illegalWord (s.present cw) = .next t := whenRunning_total ⟨_, rfl⟩
    exact ⟨t, ht, outcome_of_illegalWord ⟨e, hd⟩ ht⟩

theorem outcome_keeps_faultExplained (h : FaultExplained s) (ho : CommandOutcome s t) : FaultExplained t := by
  cases ho with
  | succeeded _ _ hflt hfcmd _ => exact faultExplained_congr hflt hfcmd h
  | faulted _ _ hf => exact hf
  | refused _ => exact h

theorem one_le_faultCode (f : FaultCode) : 1 ≤ f.code.toNat := by cases f <;> decide

end Outcomes

/-- Settles O15, by what a step can do: only fault entry records a fault, and what it records is explained. -/
theorem recordedFaultIsExplained : Obligations.RecordedFaultIsExplained := by
  intro s t h hstep
  obtain ⟨_, rfl⟩ | ⟨_, _, _, _, rfl⟩ | ⟨cw, rest, i, _, hd, hexec⟩ | ⟨cw, rest, e, _, hd, hill⟩ := step_cases hstep
  · exact h
  · exact .inl rfl
  · exact outcome_keeps_faultExplained (s := (s.takeInput rest).present cw) h (outcome_of_effect hd (exec_effect hexec))
  · exact outcome_keeps_faultExplained (s := (s.takeInput rest).present cw) h (outcome_of_illegalWord ⟨e, hd⟩ hill)

/-- Settles O9: each outcome of the command word is one of the three. -/
theorem everyCommandHasOneOfThreeOutcomes : Obligations.EveryCommandHasOneOfThreeOutcomes := by
  intro s cw rest hp
  obtain ⟨t, ht, ho⟩ := runCommand_outcome cw (s.takeInput rest)
  have hstep : step s = .next t := (step_of_command hp).trans ht
  cases ho with
  | succeeded v hresp hflt hfcmd hpending => exact ⟨t, _, hstep, hresp, hpending, .inl ⟨rfl, hflt, hfcmd⟩⟩
  | faulted f hs _ =>
    exact ⟨_, _, hstep, rfl, rfl, .inr (.inl ⟨one_le_faultCode f, faultCode_le_six f, rfl, hs, rfl⟩)⟩
  | refused hs => exact ⟨_, _, hstep, rfl, rfl, .inr (.inr ⟨rfl, rfl, hs, rfl⟩)⟩

/-- Settles O6: the word decodes, so the step is the meaning of its command. -/
theorem stepRunsDecodedCommand : Obligations.StepRunsDecodedCommand := fun _ _ _ _ => step_of_decode_eq_ok

/-! ## A halted CORE over many steps (R327) -/

/-- `s` but for what the model holds of the host: its inputs, the command word presented, the response delivered. -/
def State.withHost (s : State) (p : List HostInput) (c : CmdWord) (r : Option Response) : State :=
  { s with pending := p, cmd := c, resp := r }

section HaltedRun
variable {s t : State}

/-- While halted a command only answers: a legal `CSR.RD` its register, any other command a refusal (R325). -/
theorem exec_halted (hs : s.flt ≠ 0) (i : Instr) : ∃ r, exec i s = .next { s with resp := some r } := by
  cases i with
  | csrRd csr =>
    cases hv : csrValue s csr with
    | some v => exact ⟨_, exec_csrRd hv⟩
    | none => exact ⟨_, (exec_csrRd_undefined hv).trans (whenRunning_of_flt_ne hs)⟩
  | _ => exact ⟨_, exec_of_flt_ne hs nofun⟩

theorem step_halted_command {cw : CmdWord} {rest : List HostInput} (hs : s.flt ≠ 0)
    (hp : s.pending = .command cw :: rest) : ∃ c r, step s = .next (s.withHost rest c r) := by
  cases hd : decode cw with
  | ok i =>
    obtain ⟨r, hr⟩ := exec_halted (s := presented cw rest s) hs i
    exact ⟨cw, some r, (step_of_decode_eq_ok hp hd).trans hr⟩
  | error e =>
    refine ⟨cw, _, step_refused_of_flt_ne hs hp ?_⟩
    rintro ⟨csr, hcsr⟩
    rw [hcsr] at hd
    cases hd

theorem step_of_no_input (hp : s.pending = []) : step s = .next s := by rw [step, runNext, hp]

theorem core_run_succ (k : Nat) (h : step s = .next t) : Host.Core.run core (k + 1) s = Host.Core.run core k t := by
  have hcore : core.step s = .next t := h
  simp only [Host.Core.run, hcore]

/-- By induction on the steps: each command leaves a state that differs on the host's side alone. -/
theorem core_run_halted (k : Nat) (hs : s.flt ≠ 0) (hcommands : ∀ x ∈ s.pending.take k, ∃ cw, x = .command cw) :
    ∃ p c r, Host.Core.run core k s = .next (s.withHost p c r) := by
  induction k generalizing s with
  | zero => exact ⟨s.pending, s.cmd, s.resp, rfl⟩
  | succ k ih =>
    cases hp : s.pending with
    | nil =>
      rw [core_run_succ k (step_of_no_input hp)]
      exact ih hs (by simp [hp])
    | cons x rest =>
      rw [hp, List.take_succ_cons, List.forall_mem_cons] at hcommands
      obtain ⟨⟨cw, rfl⟩, hrest⟩ := hcommands
      obtain ⟨c, r, hstep⟩ := step_halted_command hs hp
      rw [core_run_succ k hstep]
      exact ih (s := s.withHost rest c r) hs hrest

end HaltedRun

/-- Settles O11: the run changes the host's side alone. -/
theorem haltedUntilReset : Obligations.HaltedUntilReset := by
  intro k s hs hcommands
  obtain ⟨p, c, r, hrun⟩ := core_run_halted k hs hcommands
  exact ⟨s.withHost p c r, hrun, rfl, rfl, rfl, rfl, rfl, rfl, rfl⟩

end Sys2Proof.Machine

namespace Sys2Proof.Machine
open Claims

/-! ## Reset gives the reset state (R351, R353) -/

/-- `ID` and `CAP` by their rows in the table of R300, the other items by what reset writes. -/
theorem isResetState_hostReset (s : State) : IsResetState s.cap (hostReset s) := by
  have htags (d : SlotNo) : ((hostReset s).slot d).tag = .empty := by rw [hostReset_slot, Slot.reset]
  have hid : csrValue (hostReset s) 0x000 = some 0x4D355331 := csrValue_of_mem_csrTable (.head _)
  have hcap : csrValue (hostReset s) 0x001 = some s.cap := csrValue_of_mem_csrTable (.tail _ (.head _))
  exact ⟨rfl, htags, rfl, rfl, rfl, rfl, rfl, hid, hcap⟩

/-- Reset takes effect whatever the state: neither input comes to a command's rule. -/
theorem step_of_reset {s : State} {x : HostInput} {rest : List HostInput} (hp : s.pending = x :: rest)
    (hx : x = .reset ∨ ∃ cw, x = .resetDuring cw) : step s = .next (hostReset (s.takeInput rest)) := by
  rw [step, runNext, hp]
  obtain rfl | ⟨cw, rfl⟩ := hx
  · rfl
  · rfl

/-- Settles O12: a step on either reset input is `hostReset`, and resetting the state after reset changes nothing. -/
theorem resetGivesResetState : Obligations.ResetGivesResetState := by
  refine ⟨fun s x rest hp hx => ?_, ?_⟩
  · exact ⟨hostReset (s.takeInput rest), step_of_reset hp hx, isResetState_hostReset (s.takeInput rest), rfl⟩
  · exact isResetState_hostReset State.reset

end Sys2Proof.Machine
